-- ==== Sys2Proof/Word.lean ====
section
/-! DEFINITION. The machine word. Every register, memory cell and operand byte is an unsigned 8-bit value
(00_scope.md section 6; 10_state.md R7, R12; 20_memory.md R26). -/

namespace Sys2Proof

/-- A byte: an unsigned integer 0 to 255 whose arithmetic wraps modulo 256 (R12). -/
abbrev Byte := BitVec 8

end Sys2Proof
end

