-- ==== Sys2Proof/Config.lean ====
section
/-! DEFINITION. The names the configuration is written in: the twelve mnemonics, the four instruction formats and
the type of the parameter `OPCODES` (00_scope.md section 5; 30_encoding.md R44, R46; 92_eei_decisions.md D1).

The parameter's value, `Sys2Proof.opcodes`, stands in Decode.lean beside the encoding tables; the values that reset
gives stand in Machine/ResetValues.lean. The spec leaves no value of a result open, so there is no free value. -/

namespace Sys2Proof

/-- The twelve mnemonics, the handlers the dispatch table names (40_fetch_decode_execute.md R59). -/
inductive Op where
  | ldi | prn | hlt | add | sub | mul | cmp | push | pop | call | ret | jmp
  deriving DecidableEq, Repr

/-- The four instruction formats (30_encoding.md R44). -/
inductive Format where
  /-- opcode alone -/
  | op
  /-- opcode, regA -/
  | opR
  /-- opcode, regA, regB -/
  | opRR
  /-- opcode, regA, imm8 -/
  | opRI
  deriving DecidableEq, Repr

/-- The configuration parameter `OPCODES`: the opcode byte of each mnemonic (R46, D1). It is configuration and no
state: no instruction reads or changes it (R59). -/
abbrev OpcodeMap := Op → Byte

end Sys2Proof
end

