-- ==== Sys2Proof/Syntax.lean ====
section
/-! DEFINITION. The twelve instructions (30_encoding.md R44, R46, R52), one constructor per row of
spec/opcode_table.json, in the table's order.

A register operand is an unsigned integer used as an index into the register file (R45(a)); values of 8 and more
are kept, because the spec gives them a meaning (the access raises `InvalidRegister`, R11). The immediate of LDI is
a byte (R45(b)). Bytes that an instruction does not use are no part of it (R48). -/

namespace Sys2Proof

inductive Instr where
  /-- LDI regA, imm8 (41_load_print_halt.md R60). -/
  | ldi (regA : Nat) (imm8 : Byte)
  /-- PRN regA (41_load_print_halt.md R61). -/
  | prn (regA : Nat)
  /-- HLT (41_load_print_halt.md R62). -/
  | hlt
  /-- ADD regA, regB (42_alu.md R64). -/
  | add (regA regB : Nat)
  /-- SUB regA, regB (42_alu.md R65). -/
  | sub (regA regB : Nat)
  /-- MUL regA, regB (42_alu.md R66). -/
  | mul (regA regB : Nat)
  /-- CMP regA, regB (42_alu.md R68). -/
  | cmp (regA regB : Nat)
  /-- PUSH regA (43_stack.md R71). -/
  | push (regA : Nat)
  /-- POP regA (43_stack.md R72). -/
  | pop (regA : Nat)
  /-- CALL regA (44_control_transfer.md R74). -/
  | call (regA : Nat)
  /-- RET (44_control_transfer.md R75). -/
  | ret
  /-- JMP regA (44_control_transfer.md R76). -/
  | jmp (regA : Nat)
  deriving DecidableEq, Repr

end Sys2Proof
end

