-- ==== Sys2Proof/WellFormed.lean ====
section
/-! DEFINITION. Which instructions have an encoding: those whose register operands fit the operand byte
(30_encoding.md R45(a): "the whole operand byte read as an unsigned integer 0 to 255"). An index of 8 to 255 is
well-formed: it decodes, and its access raises `InvalidRegister` when the instruction runs (R48). -/

namespace Sys2Proof

/-- The register operands of an instruction, first operand first (30_encoding.md R44). -/
def Instr.regOperands : Instr → List Nat
  | .ldi a _ => [a]
  | .prn a => [a]
  | .hlt => []
  | .add a b => [a, b]
  | .sub a b => [a, b]
  | .mul a b => [a, b]
  | .cmp a b => [a, b]
  | .push a => [a]
  | .pop a => [a]
  | .call a => [a]
  | .ret => []
  | .jmp a => [a]

/-- Every register operand fits one operand byte (R45(a)). -/
def Instr.wf (i : Instr) : Bool :=
  i.regOperands.all fun r => decide (r < 256)

end Sys2Proof
end

