-- ==== Sys2Proof/Decode.lean ====
section
/-! DEFINITION. The opcode map, the decoder and the encoder (30_encoding.md R42 to R49; 40_fetch_decode_execute.md
R55, R59), each written over any opcode map and then taken at the spec's map `opcodes`. -/

namespace Sys2Proof

/-! ### The tables -/

/-- The opcode map of R46. LDI, PRN and HLT are printed in the source; PRESUMED: the other nine values are the
spec's decision D1, from general knowledge (assumption log 1). -/
def opcodes : OpcodeMap
  | .ldi => 0x82
  | .prn => 0x47
  | .hlt => 0x01
  | .add => 0xA0
  | .sub => 0xA1
  | .mul => 0xA2
  | .cmp => 0xA7
  | .push => 0x45
  | .pop => 0x46
  | .call => 0x50
  | .ret => 0x11
  | .jmp => 0x54

/-- The entries of the dispatch table, exactly twelve (R46, R59). -/
def Op.all : List Op :=
  [.ldi, .prn, .hlt, .add, .sub, .mul, .cmp, .push, .pop, .call, .ret, .jmp]

/-- The format of each mnemonic (R44, R46). -/
def Op.format : Op → Format
  | .ldi => .opRI
  | .prn => .opR
  | .hlt => .op
  | .add => .opRR
  | .sub => .opRR
  | .mul => .opRR
  | .cmp => .opRR
  | .push => .opR
  | .pop => .opR
  | .call => .opR
  | .ret => .op
  | .jmp => .opR

/-- The length in bytes of each format (R44). -/
def Format.length : Format → Nat
  | .op => 1
  | .opR => 2
  | .opRR => 3
  | .opRI => 3

/-- The mnemonic of an instruction. -/
def Instr.op : Instr → Op
  | .ldi _ _ => .ldi
  | .prn _ => .prn
  | .hlt => .hlt
  | .add _ _ => .add
  | .sub _ _ => .sub
  | .mul _ _ => .mul
  | .cmp _ _ => .cmp
  | .push _ => .push
  | .pop _ => .pop
  | .call _ => .call
  | .ret => .ret
  | .jmp _ => .jmp

/-- The length of an instruction, fixed by its opcode alone (R43). -/
def Instr.length (i : Instr) : Nat := i.op.format.length

/-! ### The decoder -/

/-- What decoding three fetched bytes answers: one of the twelve instructions, or the opcode byte that has no
handler (R59: an enumeration with an explicit `Unknown(byte)` variant). -/
inductive Decoded where
  | instr (i : Instr)
  | unknown (byte : Byte)
  deriving DecidableEq, Repr

/-- The dispatch table: the mnemonic whose opcode is the whole byte `ir`, if there is one (R43, R55). -/
def lookup (m : OpcodeMap) (ir : Byte) : Option Op :=
  Op.all.find? fun op => m op == ir

/-- The instruction of a mnemonic with the two candidate operand bytes of the fetch; a byte the format does not use
is dropped unread (R44, R45, R48). -/
def Op.instr (op : Op) (opA opB : Byte) : Instr :=
  match op with
  | .ldi => .ldi opA.toNat opB
  | .prn => .prn opA.toNat
  | .hlt => .hlt
  | .add => .add opA.toNat opB.toNat
  | .sub => .sub opA.toNat opB.toNat
  | .mul => .mul opA.toNat opB.toNat
  | .cmp => .cmp opA.toNat opB.toNat
  | .push => .push opA.toNat
  | .pop => .pop opA.toNat
  | .call => .call opA.toNat
  | .ret => .ret
  | .jmp => .jmp opA.toNat

/-- Decode under an opcode map; total on every three bytes (R47, R55). -/
def decodeWith (m : OpcodeMap) (ir opA opB : Byte) : Decoded :=
  match lookup m ir with
  | some op => .instr (op.instr opA opB)
  | none => .unknown ir

/-- The decoder of the hardware: `decodeWith` at the map of R46. -/
def decode (ir opA opB : Byte) : Decoded := decodeWith opcodes ir opA opB

/-! ### The encoder -/

/-- A register operand as its operand byte (R45(a)); exact for a well-formed instruction. -/
def regByte (r : Nat) : Byte := BitVec.ofNat 8 r

/-- The operand bytes of an instruction, lowest address first (R32, R42, R44). -/
def Instr.operandBytes : Instr → List Byte
  | .ldi a v => [regByte a, v]
  | .prn a => [regByte a]
  | .hlt => []
  | .add a b => [regByte a, regByte b]
  | .sub a b => [regByte a, regByte b]
  | .mul a b => [regByte a, regByte b]
  | .cmp a b => [regByte a, regByte b]
  | .push a => [regByte a]
  | .pop a => [regByte a]
  | .call a => [regByte a]
  | .ret => []
  | .jmp a => [regByte a]

/-- Encode under an opcode map: the opcode byte, then the operand bytes (R42). -/
def encodeWith (m : OpcodeMap) (i : Instr) : List Byte := m i.op :: i.operandBytes

/-- The encoder of the hardware: `encodeWith` at the map of R46. -/
def encode (i : Instr) : List Byte := encodeWith opcodes i

/-! ### The table's words -/

/-- Byte `k` of a word numbered as spec/opcode_table.json numbers it: bit 0 is the least significant bit of the
first byte. -/
def tableByte (nbits w k : Nat) : Byte := BitVec.ofNat 8 (w % 2 ^ nbits / 256 ^ k)

/-- What the decoder reads from the word `w` of `nbits` bits; every bit above `nbits` is 0. -/
def decodeTableWord (nbits w : Nat) : Option Instr :=
  match decode (tableByte nbits w 0) (tableByte nbits w 1) (tableByte nbits w 2) with
  | .instr i => some i
  | .unknown _ => none

end Sys2Proof
end

