-- ==== Sys2Proof/Machine/Flags.lean ====
section
/-! DEFINITION. The flags register FL and the one computation that writes it (10_state.md R18 to R20; 42_alu.md R68).

FL is held as the enumeration R19 allows, so the four values the hardware never holds cannot be written down; the
3-bit number is `Fl.bits`. -/

namespace Sys2Proof.Machine

/-- The flags register FL, 3 bits wide (R18, R19). -/
inductive Fl where
  /-- no bit set: no compare has executed since reset (R19, R21) -/
  | none
  /-- Equal -/
  | equal
  /-- Greater-than -/
  | greater
  /-- Less-than -/
  | less
  deriving DecidableEq, Repr

/-- FL as a number, `LGE`. PRESUMED: the bit positions are the spec's decision D4, from general knowledge
(assumption log 3); no instruction shows them. -/
def Fl.bits : Fl → BitVec 3
  | .none => 0b000
  | .equal => 0b001
  | .greater => 0b010
  | .less => 0b100

/-- CMP's flag rule (R68): the sign of the exact difference of the two values 0 to 255, not reduced modulo 256. -/
def compareFlags (va vb : Byte) : Fl :=
  let d : Int := (va.toNat : Int) - (vb.toNat : Int)
  if d > 0 then .greater
  else if d < 0 then .less
  else .equal

end Sys2Proof.Machine
end

