-- ==== Sys2Proof/Machine/ResetValues.lean ====
section
/-! DEFINITION. The values reset gives the state's components (70_reset_and_hazards.md R95, the table). -/

namespace Sys2Proof.Machine

/-- `SP_RESET`, the reset value of R7 (10_state.md R17). -/
def spReset : Byte := 0xF4

/-- `GPR_RESET`, the reset value of R0 to R6. DESIGN CHOICE of the spec, its decision D6: the source states none
(10_state.md R17; assumption log 2). -/
def gprReset : Byte := 0

/-- `PC_RESET` (10_state.md R16). -/
def pcReset : Nat := 0

/-- `FL_RESET`. DESIGN CHOICE of the spec, its decision D5: the source states none (10_state.md R21; assumption
log 2). -/
def flReset : Fl := .none

/-- What a cell of memory reads as until it is written: memory is zero-initialized (10_state.md R23). -/
def memReset : Byte := 0

end Sys2Proof.Machine
end

