-- ==== Sys2Proof/Machine/State.lean ====
section
/-! DEFINITION. The whole mutable state of the machine (10_state.md R7 to R25) and the state after reset
(70_reset_and_hazards.md R95), as plain data; and the reasons for which a step has no next state. -/

namespace Sys2Proof.Machine

/-- The run state (10_state.md R22): `running` is initial, `halted` and `faulted` are terminal. -/
inductive RunState where
  | running
  | halted
  | faulted
  deriving DecidableEq, Repr

/-- The spec's faults with the value each one records (60_exceptions.md R77, R94). Raising one is a next state
(R81), not the end of the model's step; see `Fault` for that. -/
inductive CoreFault where
  /-- `AddressOutOfRange (addr)`: a memory access outside 0 to 255 (R78) -/
  | addressOutOfRange (addr : Int)
  /-- `InvalidRegister (index)`: a register access with an index of 8 or more (R79) -/
  | invalidRegister (index : Nat)
  /-- `UnknownOpcode (byte)`: the fetched opcode has no handler (R80) -/
  | unknownOpcode (byte : Byte)
  /-- `UnsupportedOperation`: defined, and raised by no step (R83; assumption log 11) -/
  | unsupportedOperation
  deriving DecidableEq, Repr

/-- Memory: its cells that do not hold the reset value, addresses strictly rising (20_memory.md R26). -/
abbrev Memory := List Host.Cell

/-- The state. There is no other (10_state.md R25). -/
structure State where
  /-- R0 to R7; R7 is the stack pointer (R7, R8) -/
  regs : Vector Byte 8
  /-- the program counter, an integer that is never reduced (R13) -/
  pc : Nat
  /-- the flags register FL (R18) -/
  fl : Fl
  /-- Running, Halted or Faulted (R22) -/
  runState : RunState
  /-- the 256 cells of memory (R23) -/
  mem : Memory
  /-- the output channel: the values PRN has emitted, in order (R24(a)) -/
  out : List Byte
  /-- the fault record (R24(b)) -/
  fault : Option CoreFault
  deriving DecidableEq, Repr

/-- The state right after reset, before a program image is loaded (70_reset_and_hazards.md R95). -/
def State.reset : State where
  regs := #v[gprReset, gprReset, gprReset, gprReset, gprReset, gprReset, gprReset, spReset]
  pc := pcReset
  fl := flReset
  runState := .running
  mem := []
  out := []
  fault := none

/-- Why the machine has no step. Both are raised by `step` alone, and no instruction's meaning answers with one:
"In `Halted` and in `Faulted` the core has no step" (40_fetch_decode_execute.md R53). Both are safe: no next state is
claimed (assumption log 6). -/
inductive Fault where
  /-- raised by `step` in a Halted core; safe -/
  | coreHalted
  /-- raised by `step` in a Faulted core; safe -/
  | coreFaulted
  deriving DecidableEq, Repr

/-- Why the model gives an instruction no meaning. -/
inductive Refusal where
  /-- raised by `exec` for an instruction that has no meaning yet; safe. Every instruction has its meaning, so no
  arm answers with it. -/
  | notModelled (mnemonic : String)
  deriving DecidableEq, Repr

/-- What a step or a meaning answers. -/
abbrev Result := Host.Outcome State Fault Refusal

end Sys2Proof.Machine
end

