-- ==== Sys2Proof/Machine/Ops.lean ====
section
/-! DEFINITION. The named operations over memory, registers and the program counter, and raising a fault.

An operation of the spec's pseudocode that can raise takes the rest of the instruction as its last argument: the
statements before it have taken effect in the state it gets, and where it raises the rest does not happen
(00_scope.md section 6; 60_exceptions.md R81, R82). -/

namespace Sys2Proof.Machine

/-! ### Memory as data -/

/-- The byte at an address: the listed one, else the reset value (20_memory.md R28). -/
def Memory.read : Memory → Nat → Byte
  | [], _ => memReset
  | (a, v) :: m, x => if a = x then v else Memory.read m x

/-- Put a cell in its place by address. -/
def Memory.insert (x : Nat) (v : Byte) : Memory → Memory
  | [] => [(x, v)]
  | (a, w) :: m => if x < a then (x, v) :: (a, w) :: m else (a, w) :: Memory.insert x v m

/-- Write one byte: the addressed cell and no other (20_memory.md R28). Writing the reset value takes the cell off
the list, so that equal memories are equal lists. -/
def Memory.write (m : Memory) (x : Nat) (v : Byte) : Memory :=
  let rest := m.filter fun c => c.1 != x
  if v = memReset then rest else Memory.insert x v rest

/-- The canonical form: addresses strictly rising and below 256, and no cell that holds the reset value. -/
def Memory.wf : Memory → Bool
  | [] => true
  | (a, v) :: m => decide (a < 256) && v != memReset && m.all (fun c => decide (a < c.1)) && Memory.wf m

/-! ### Raising a fault -/

/-- `raise F(info)` (60_exceptions.md R81): the core becomes Faulted with the fault recorded, and everything done
before stays done (R82). There is no handler, no vector and no saved pc; there is no return from a fault (R87). -/
def State.raise (s : State) (f : CoreFault) : State :=
  { s with runState := .faulted, fault := some f }

/-! ### The cells of the state -/

/-- The byte in cell `a` of memory (20_memory.md R26). -/
def State.byte (s : State) (a : Nat) : Byte := Memory.read s.mem a

/-- Change cell `a` of memory and nothing else (20_memory.md R28). -/
def State.setByte (s : State) (a : Nat) (v : Byte) : State := { s with mem := Memory.write s.mem a v }

/-- The byte in register cell `i` (10_state.md R7). -/
def State.reg (s : State) (i : Fin 8) : Byte := s.regs[i]

/-- Change register cell `i` and nothing else; no cell is read-only (10_state.md R10). -/
def State.setReg (s : State) (i : Fin 8) (v : Byte) : State := { s with regs := s.regs.set i v }

/-! ### Memory accesses -/

/-- `MemRead(addr, 1)`, `addr` an unbounded integer (20_memory.md R27). -/
def State.memRead (s : State) (addr : Int) (rest : Byte → Result) : Result :=
  if 0 ≤ addr ∧ addr < 256 then rest (s.byte addr.toNat)
  else .next (s.raise (.addressOutOfRange addr))

/-- `MemWrite(addr, 1, v)`, `addr` an unbounded integer (20_memory.md R27). -/
def State.memWrite (s : State) (addr : Int) (v : Byte) (rest : State → Result) : Result :=
  if 0 ≤ addr ∧ addr < 256 then rest (s.setByte addr.toNat v)
  else .next (s.raise (.addressOutOfRange addr))

/-! ### Register accesses -/

/-- `x[i]`, the contract `get(i)` (10_state.md R11). -/
def State.readReg (s : State) (i : Nat) (rest : Byte → Result) : Result :=
  if h : i < 8 then rest (s.reg ⟨i, h⟩)
  else .next (s.raise (.invalidRegister i))

/-- `x[i] <- v`, the contract `set(i, v)` (10_state.md R11). -/
def State.writeReg (s : State) (i : Nat) (v : Byte) (rest : State → Result) : Result :=
  if h : i < 8 then rest (s.setReg ⟨i, h⟩ v)
  else .next (s.raise (.invalidRegister i))

/-- `SP`, an alias of register cell 7 (10_state.md R8). -/
def State.sp (s : State) : Byte := s.reg 7

/-- `SP <- v` (10_state.md R8). -/
def State.setSp (s : State) (v : Byte) : State := s.setReg 7 v

/-- `SP <- (SP - 1) mod 256` (43_stack.md R70). -/
def State.decSp (s : State) : State := s.setSp (s.sp - 1)

/-- `SP <- (SP + 1) mod 256` (43_stack.md R70). -/
def State.incSp (s : State) : State := s.setSp (s.sp + 1)

/-! ### The other components -/

/-- `pc <- pc + n`, a handler's advance by its instruction's length (10_state.md R14). -/
def State.advance (s : State) (n : Nat) : State := { s with pc := s.pc + n }

/-- `pc <- target`, the overwrite of a control transfer: a whole byte as it is (44_control_transfer.md R73). -/
def State.jumpTo (s : State) (target : Byte) : State := { s with pc := target.toNat }

/-- `FL <- f`, all three bits (10_state.md R18). -/
def State.setFl (s : State) (f : Fl) : State := { s with fl := f }

/-- `Emit(v)`: append to the output channel; it cannot fail or block (41_load_print_halt.md R61). -/
def State.emit (s : State) (v : Byte) : State := { s with out := s.out ++ [v] }

/-- `run_state <- Halted` (41_load_print_halt.md R62). -/
def State.halt (s : State) : State := { s with runState := .halted }

/-! ### Fetch -/

/-- The three fetch reads, in order, at integer addresses that are not reduced (40_fetch_decode_execute.md R54). -/
def State.fetch (s : State) (rest : Byte → Byte → Byte → Result) : Result :=
  s.memRead s.pc fun ir =>
  s.memRead (s.pc + 1) fun opA =>
  s.memRead (s.pc + 2) fun opB =>
  rest ir opA opB

/-- Store bytes at rising addresses, as an instruction lies in memory (20_memory.md R32); an address beyond the last
cell has no cell and takes nothing. -/
def State.storeBytes (s : State) (addr : Nat) : List Byte → State
  | [] => s
  | b :: bs =>
    let s' := if addr < 256 then s.setByte addr b else s
    s'.storeBytes (addr + 1) bs

end Sys2Proof.Machine
end

