-- ==== Sys2Proof/Machine/Operands.lean ====
section
/-! DEFINITION. The operand forms (30_encoding.md R45): a register operand, an immediate byte, and nothing else
(R45(c)). The immediate is its byte; a register source is `State.readReg` and a register destination
`State.writeReg`; here stands the one form made of two, the pair of register sources of the ALU. -/

namespace Sys2Proof.Machine

/-- The ALU's two register sources: `x[a]` first, then `x[b]`, both before anything is written (42_alu.md R63). -/
def State.readPair (s : State) (a b : Nat) (rest : Byte → Byte → Result) : Result :=
  s.readReg a fun va =>
  s.readReg b fun vb =>
  rest va vb

end Sys2Proof.Machine
end

