-- ==== Sys2Proof/Machine/Alu.lean ====
section
/-! DEFINITION. The ALU and its four instructions: ADD, SUB, MUL, CMP (42_alu.md R63 to R69). -/

namespace Sys2Proof.Machine

/-- The ALU's operation selector, a closed enumeration, so that `UnsupportedOperation` cannot be raised (R69). -/
inductive AluOp where
  | add | sub | mul | cmp
  deriving DecidableEq, Repr

/-- What an ALU operation produces: "either an updated register value or an updated flags state" (R63). -/
inductive AluResult where
  | value (v : Byte)
  | flags (f : Fl)
  deriving DecidableEq, Repr

/-- The ALU's computation on two values: arithmetic modulo 256 (R67), or the compare (R68). It writes no flag but
through CMP and holds no state (R63). -/
def aluCompute (op : AluOp) (va vb : Byte) : AluResult :=
  match op with
  | .add => .value (va + vb)
  | .sub => .value (va - vb)
  | .mul => .value (va * vb)
  | .cmp => .flags (compareFlags va vb)

/-- An ALU operation over register indices (R63): read `x[a]`, read `x[b]`, compute, write the one result (`x[a]`,
or FL for CMP). -/
def State.alu (s : State) (op : AluOp) (a b : Nat) (rest : State → Result) : Result :=
  s.readPair a b fun va vb =>
  match aluCompute op va vb with
  | .value v => s.writeReg a v rest
  | .flags f => rest (s.setFl f)

/-- ADD (R64). -/
def execAdd (regA regB : Nat) (s : State) : Result :=
  s.alu .add regA regB fun s =>
  .next (s.advance 3)

/-- SUB (R65). -/
def execSub (regA regB : Nat) (s : State) : Result :=
  s.alu .sub regA regB fun s =>
  .next (s.advance 3)

/-- MUL (R66). -/
def execMul (regA regB : Nat) (s : State) : Result :=
  s.alu .mul regA regB fun s =>
  .next (s.advance 3)

/-- CMP (R68). -/
def execCmp (regA regB : Nat) (s : State) : Result :=
  s.alu .cmp regA regB fun s =>
  .next (s.advance 3)

end Sys2Proof.Machine
end

