-- ==== Sys2Proof/Machine/Control.lean ====
section
/-! DEFINITION. Control transfer: CALL, RET, JMP (44_control_transfer.md R73 to R76). -/

namespace Sys2Proof.Machine

/-- The return address a CALL at `pc` pushes: `pc + 2`, one byte (R74). It is exact wherever a CALL can execute
(`pc <= 253`); DEDUCED: elsewhere, where no step calls it, it is the low byte (assumption log 8). -/
def returnAddress (pc : Nat) : Byte := BitVec.ofNat 8 (pc + 2)

/-- CALL (R74): decrement, push the return address, then read the register into pc. CALL R7 jumps to the decremented
SP; a bad index leaves the push done. -/
def execCall (regA : Nat) (s : State) : Result :=
  let s := s.decSp
  s.memWrite s.sp.toNat (returnAddress s.pc) fun s =>
  s.readReg regA fun target =>
  .next (s.jumpTo target)

/-- RET (R75): pc from the stack, then increment. -/
def execRet (s : State) : Result :=
  s.memRead s.sp.toNat fun target =>
  .next (s.jumpTo target).incSp

/-- JMP (R76). -/
def execJmp (regA : Nat) (s : State) : Result :=
  s.readReg regA fun target =>
  .next (s.jumpTo target)

end Sys2Proof.Machine
end

