-- ==== Sys2Proof/Machine/LoadPrintHalt.lean ====
section
/-! DEFINITION. Load immediate, print and halt: LDI, PRN, HLT (41_load_print_halt.md R60 to R62). -/

namespace Sys2Proof.Machine

/-- LDI (R60). -/
def execLdi (regA : Nat) (imm8 : Byte) (s : State) : Result :=
  s.writeReg regA imm8 fun s =>
  .next (s.advance 3)

/-- PRN (R61). -/
def execPrn (regA : Nat) (s : State) : Result :=
  s.readReg regA fun v =>
  .next ((s.emit v).advance 2)

/-- HLT (R62): the pc advances past the HLT although nothing is fetched afterwards. -/
def execHlt (s : State) : Result :=
  .next (s.halt.advance 1)

end Sys2Proof.Machine
end

