-- ==== Sys2Proof/Machine/Stack.lean ====
section
/-! DEFINITION. The stack instructions PUSH and POP (43_stack.md R70 to R72), their statements in the spec's order. -/

namespace Sys2Proof.Machine

/-- PUSH (R71): decrement, then read the register, then write. PUSH R7 pushes the decremented SP; a bad index
leaves SP decremented. -/
def execPush (regA : Nat) (s : State) : Result :=
  let s := s.decSp
  s.readReg regA fun v =>
  s.memWrite s.sp.toNat v fun s =>
  .next (s.advance 2)

/-- POP (R72): read memory, then write the register, then increment. POP R7 increments the popped value. -/
def execPop (regA : Nat) (s : State) : Result :=
  s.memRead s.sp.toNat fun v =>
  s.writeReg regA v fun s =>
  .next (s.incSp.advance 2)

end Sys2Proof.Machine
end

