-- ==== Sys2Proof/Machine/Dispatch.lean ====
section
/-! DEFINITION. Execute: one handler per instruction, which advances or overwrites pc itself
(40_fetch_decode_execute.md R56). -/

namespace Sys2Proof.Machine

def exec (i : Instr) (s : State) : Host.Outcome State Fault Refusal :=
  match i with
  | .ldi regA imm8 => Sys2Proof.Machine.execLdi regA imm8 s
  | .prn regA => Sys2Proof.Machine.execPrn regA s
  | .hlt => Sys2Proof.Machine.execHlt s
  | .add regA regB => Sys2Proof.Machine.execAdd regA regB s
  | .sub regA regB => Sys2Proof.Machine.execSub regA regB s
  | .mul regA regB => Sys2Proof.Machine.execMul regA regB s
  | .cmp regA regB => Sys2Proof.Machine.execCmp regA regB s
  | .push regA => Sys2Proof.Machine.execPush regA s
  | .pop regA => Sys2Proof.Machine.execPop regA s
  | .call regA => Sys2Proof.Machine.execCall regA s
  | .ret => Sys2Proof.Machine.execRet s
  | .jmp regA => Sys2Proof.Machine.execJmp regA s

end Sys2Proof.Machine
end

