-- ==== Sys2Proof/Machine/Cycle.lean ====
section
/-! DEFINITION. The loop body: fetch, decode, execute one instruction (40_fetch_decode_execute.md R53 to R57), under
any opcode map; and an instruction word placed where the next fetch reads. -/

namespace Sys2Proof.Machine

/-- Run what was decoded: the handler, or the fault of an opcode without one (R55, R57). -/
def execDecoded (d : Decoded) (s : State) : Result :=
  match d with
  | .instr i => exec i s
  | .unknown byte => .next (s.raise (.unknownOpcode byte))

/-- The step function of R57 under an opcode map. A Halted or Faulted core has no step (R53; assumption log 6). -/
def stepWith (m : OpcodeMap) (s : State) : Result :=
  match s.runState with
  | .running => s.fetch fun ir opA opB => execDecoded (decodeWith m ir opA opB) s
  | .halted => .fault .coreHalted
  | .faulted => .fault .coreFaulted

/-- The instruction word `w` of `nbits` bits, with zeros above it up to three bytes, stored at pc (assumption
log 9). -/
def State.placeWord (s : State) (nbits w : Nat) : State :=
  s.storeBytes s.pc [tableByte nbits w 0, tableByte nbits w 1, tableByte nbits w 2]

end Sys2Proof.Machine
end

