-- ==== Sys2Proof/Machine/Step.lean ====
section
/-! DEFINITION. The hardware's step: the loop body at the opcode map of 30_encoding.md R46. -/

namespace Sys2Proof.Machine

/-- One step of the hardware (40_fetch_decode_execute.md R57). -/
def step (s : State) : Host.Outcome State Fault Refusal := stepWith opcodes s

/-- The state with an instruction word stored where the next fetch reads (assumption log 9). -/
def State.withFetchWord (s : State) (nbits w : Nat) : State := s.placeWord nbits w

end Sys2Proof.Machine
end

