-- ==== Sys2Proof/Machine/Output.lean ====
section
/-! DEFINITION. The text the surrounding software makes of the output channel (41_load_print_halt.md R61): per value
the decimal numeral of the unsigned byte, no sign, no leading zero, no padding, then one newline. -/

namespace Sys2Proof.Machine

/-- The character of a decimal digit. -/
def digitChar (d : Nat) : Char := Char.ofNat (48 + d)

/-- The decimal numeral of a byte (R61). -/
def decimal (v : Byte) : List Char :=
  let n := v.toNat
  if n < 10 then [digitChar n]
  else if n < 100 then [digitChar (n / 10), digitChar (n % 10)]
  else [digitChar (n / 100), digitChar (n / 10 % 10), digitChar (n % 10)]

/-- The text on the output channel: one line per value (R61). DESIGN CHOICE: the newline is the character line feed
(assumption log 7). -/
def State.outText (s : State) : List Char :=
  s.out.flatMap fun v => decimal v ++ ['\n']

end Sys2Proof.Machine
end

