-- ==== Sys2Proof/Machine/Loader.lean ====
section
/-! DEFINITION. The Loader, outside the core (00_scope.md R4): it reads the text image (30_encoding.md R51) and
writes the byte list into memory from address 0 before the first step (70_reset_and_hazards.md R96). -/

namespace Sys2Proof.Machine

/-- Why no program is loaded. -/
inductive LoadError where
  /-- the image has a byte for an address that has no cell (R96: `AddressOutOfRange(256)` at its 257th byte) -/
  | addressOutOfRange (addr : Int)
  /-- a line of the text image is none of the three kinds (92_eei_decisions.md D14) -/
  | malformedLine
  deriving DecidableEq, Repr

/-- The start state of a run (R95 to R97): reset, then byte `k` of the image at address `k`. An image of more than
256 bytes is refused (D12). -/
def State.start (image : List Byte) : Except LoadError State :=
  if image.length ≤ 256 then .ok (State.reset.storeBytes 0 image)
  else .error (.addressOutOfRange 256)

/-- A binary digit's value. -/
def binaryDigit (c : Char) : Option Nat :=
  if c = '0' then some 0 else if c = '1' then some 1 else none

/-- Read `n` leading binary digits, most significant first, after `acc`; what follows them is ignored (R51). -/
def leadingBinary : Nat → Nat → List Char → Option Nat
  | 0, acc, _ => some acc
  | _ + 1, _, [] => none
  | n + 1, acc, c :: cs =>
    match binaryDigit c with
    | some d => leadingBinary n (2 * acc + d) cs
    | none => none

/-- A white space character within a line. -/
def isSpace (c : Char) : Bool := c = ' ' || c = '\t' || c = '\r'

/-- The bytes one line gives: none for a blank line or a comment, one for a line that begins with eight binary
digits; any other line is refused (R51, D14). DESIGN CHOICE: a line of white space alone is blank (assumption
log 13). -/
def lineBytes (line : List Char) : Except LoadError (List Byte) :=
  if line.all isSpace then .ok []
  else if line.head? = some '#' then .ok []
  else
    match leadingBinary 8 0 line with
    | some n => .ok [BitVec.ofNat 8 n]
    | none => .error .malformedLine

/-- The byte list of a text image, in file order (R51). -/
def imageBytes : List (List Char) → Except LoadError (List Byte)
  | [] => .ok []
  | line :: lines =>
    match lineBytes line with
    | .error e => .error e
    | .ok bs =>
      match imageBytes lines with
      | .error e => .error e
      | .ok more => .ok (bs ++ more)

/-- The start state of a run of a text image (R51, R96). -/
def State.startText (lines : List (List Char)) : Except LoadError State :=
  match imageBytes lines with
  | .error e => .error e
  | .ok image => State.start image

end Sys2Proof.Machine
end

