-- ==== Sys2Proof/Safety.lean ====
section
/-! DEFINITION. The terms claims use: the machine's invariant, and runs, their ends and their safety
(70_reset_and_hazards.md R99; 40_fetch_decode_execute.md R58). -/

namespace Sys2Proof

/-- An opcode map that the dispatch table can hold: no two mnemonics share a byte (30_encoding.md R46). -/
def OpcodeMap.Injective (m : OpcodeMap) : Prop := ∀ x y, m x = m y → x = y

/-- A map that agrees with the three values the source prints (30_encoding.md R46). -/
def OpcodeMap.AgreesWithSource (m : OpcodeMap) : Prop :=
  m .ldi = 0x82 ∧ m .prn = 0x47 ∧ m .hlt = 0x01

/-- The register an instruction names as its destination: LDI, ADD, SUB, MUL (first operand) and POP have one
(10_state.md R10). -/
def Instr.destination : Instr → Option Nat
  | .ldi a _ => some a
  | .prn _ => none
  | .hlt => none
  | .add a _ => some a
  | .sub a _ => some a
  | .mul a _ => some a
  | .cmp _ _ => none
  | .push _ => none
  | .pop a => some a
  | .call _ => none
  | .ret => none
  | .jmp _ => none

/-- The instructions that read and write R7 implicitly: PUSH, POP, CALL and RET (10_state.md R8). -/
def Instr.usesStack : Instr → Bool
  | .ldi _ _ => false
  | .prn _ => false
  | .hlt => false
  | .add _ _ => false
  | .sub _ _ => false
  | .mul _ _ => false
  | .cmp _ _ => false
  | .push _ => true
  | .pop _ => true
  | .call _ => true
  | .ret => true
  | .jmp _ => false

/-- The control transfers: CALL, RET and JMP overwrite pc and do not advance it (44_control_transfer.md R73). -/
def Instr.isTransfer : Instr → Bool
  | .ldi _ _ => false
  | .prn _ => false
  | .hlt => false
  | .add _ _ => false
  | .sub _ _ => false
  | .mul _ _ => false
  | .cmp _ _ => false
  | .push _ => false
  | .pop _ => false
  | .call _ => true
  | .ret => true
  | .jmp _ => true

end Sys2Proof

namespace Sys2Proof.Machine

/-- What every state of a run satisfies. -/
structure State.Inv (s : State) : Prop where
  /-- pc takes the values 0 to 256 (10_state.md R13) -/
  pcRange : s.pc ≤ 256
  /-- memory is 256 cells in the model's canonical form (20_memory.md R26) -/
  memWf : Memory.wf s.mem = true
  /-- the fault record is present exactly in the Faulted state (10_state.md R24(b)) -/
  record : s.fault.isSome = true ↔ s.runState = .faulted

/-- What the bytes at pc decode to under an opcode map (40_fetch_decode_execute.md R54, R55). -/
def State.decoded (m : OpcodeMap) (s : State) : Decoded :=
  decodeWith m (s.byte s.pc) (s.byte (s.pc + 1)) (s.byte (s.pc + 2))

/-- `t` is reached from `s` by steps. -/
inductive Steps : State → State → Prop where
  | refl (s : State) : Steps s s
  | tail {s t u : State} : Steps s t → step t = .next u → Steps s u

/-- A run from `s` ends normally: it reaches Halted (R99). -/
def State.Halts (s : State) : Prop := ∃ t, Steps s t ∧ t.runState = .halted

/-- A run from `s` is safe: it never reaches Faulted (R81, R99). -/
def State.Safe (s : State) : Prop := ∀ t, Steps s t → t.runState ≠ .faulted

/-- A run from `s` never ends: every state it reaches is Running (R58). -/
def State.RunsForever (s : State) : Prop := ∀ t, Steps s t → t.runState = .running

end Sys2Proof.Machine
end

