-- ==== Sys2Proof/Certificates/Slice0/Obligations.lean ====
section
/-! DEFINITION. The statements for the provers, each a proposition about the model with the rule of spec/ it
formalises. `a : Fin 8` ranges over every register index the hardware has; an index of 8 or more is a `Nat` with a
premise. A statement that mentions no opcode byte is stated for every opcode map (92_eei_decisions.md D1). -/

open Sys2Proof Sys2Proof.Machine

/-! ### Reset and load -/

/-- R16: pc is 0 at reset, and the first instruction is the one whose opcode byte is at address 0, whatever memory the
Loader has left. -/
def Obligations.ResetStartsAtAddressZero : Prop :=
  State.reset.pc = 0 ∧
  ∀ mem : Memory, step { State.reset with mem := mem } =
    execDecoded (decode (Memory.read mem 0) (Memory.read mem 1) (Memory.read mem 2)) { State.reset with mem := mem }

/-- R95's table. The zeros of R0 to R6 and of FL are the spec's decisions D6 and D5 (log 2). -/
def Obligations.ResetTable : Prop :=
  State.reset.reg 7 = 0xF4 ∧ (∀ r : Fin 8, r ≠ 7 → State.reset.reg r = 0) ∧
  State.reset.pc = 0 ∧ State.reset.fl = .none ∧ State.reset.runState = .running ∧
  (∀ a : Nat, State.reset.byte a = 0) ∧ State.reset.out = [] ∧ State.reset.fault = none

/-- R96, D12: byte k of the image lies at address k, every other cell holds 0, nothing else differs from reset, and an
image of more than 256 bytes is refused. -/
def Obligations.LoaderPlacesImage : Prop :=
  (∀ image : List Byte, image.length ≤ 256 →
    ∃ s, State.start image = .ok s ∧
      (∀ k : Nat, s.byte k = image.getD k 0) ∧ s.Inv ∧
      s.regs = State.reset.regs ∧ s.pc = 0 ∧ s.fl = .none ∧ s.runState = .running ∧ s.out = [] ∧ s.fault = none) ∧
  (∀ image : List Byte, 256 < image.length → State.start image = .error (.addressOutOfRange 256))

/-- R51: a line of eight binary digits, the first the most significant, gives its byte, and what follows the eight is
ignored. -/
def Obligations.ImageLineGivesItsByte : Prop :=
  ∀ (b : Byte) (trailing : List Char),
    lineBytes ((List.range 8).map (fun k => if b.getLsbD (7 - k) then '1' else '0') ++ trailing) = .ok [b]

/-! ### Registers and memory -/

/-- R11: the register access contract, with the rest of the instruction that follows the access. -/
def Obligations.RegisterAccessContract : Prop :=
  (∀ (s : State) (i : Fin 8) (rest : Byte → Result), s.readReg i rest = rest (s.reg i)) ∧
  (∀ (s : State) (i : Fin 8) (v : Byte) (rest : State → Result),
    s.writeReg i v rest = rest { s with regs := s.regs.set i v }) ∧
  (∀ (s : State) (i : Nat) (rest : Byte → Result), 8 ≤ i →
    s.readReg i rest = .next (s.raise (.invalidRegister i))) ∧
  (∀ (s : State) (i : Nat) (v : Byte) (rest : State → Result), 8 ≤ i →
    s.writeReg i v rest = .next (s.raise (.invalidRegister i)))

/-- R27: the memory access contract at every integer address. -/
def Obligations.MemoryAccessContract : Prop :=
  (∀ (s : State) (a : Int) (rest : Byte → Result), 0 ≤ a → a < 256 →
    s.memRead a rest = rest (s.byte a.toNat)) ∧
  (∀ (s : State) (a : Int) (v : Byte) (rest : State → Result), 0 ≤ a → a < 256 →
    s.memWrite a v rest = rest { s with mem := Memory.write s.mem a.toNat v }) ∧
  (∀ (s : State) (a : Int) (rest : Byte → Result), a < 0 ∨ 256 ≤ a →
    s.memRead a rest = .next (s.raise (.addressOutOfRange a))) ∧
  (∀ (s : State) (a : Int) (v : Byte) (rest : State → Result), a < 0 ∨ 256 ≤ a →
    s.memWrite a v rest = .next (s.raise (.addressOutOfRange a)))

/-- R28: a write changes exactly the addressed cell to exactly the byte written, and nothing else of the state; a read
hands the rest of the instruction the cell's byte and changes nothing; a cell never written reads as its reset
value 0. -/
def Obligations.WriteChangesOneCell : Prop :=
  (∀ (s : State) (a : Int) (v : Byte), 0 ≤ a → a < 256 →
    ∃ t, s.memWrite a v .next = .next t ∧ t.byte a.toNat = v ∧
      (∀ b : Nat, b ≠ a.toNat → t.byte b = s.byte b) ∧
      t.regs = s.regs ∧ t.pc = s.pc ∧ t.fl = s.fl ∧ t.runState = s.runState ∧ t.out = s.out ∧ t.fault = s.fault) ∧
  (∀ (s : State) (a : Int), 0 ≤ a → a < 256 →
    s.memRead a (fun v => .next (s.setByte a.toNat v)) = .next (s.setByte a.toNat (s.byte a.toNat))) ∧
  (∀ a : Nat, State.reset.byte a = 0)

/-- R26, R38: the canonical form makes memories equal exactly when every cell reads the same. -/
def Obligations.EqualReadsEqualMemory : Prop :=
  ∀ m n : Memory, Memory.wf m = true → Memory.wf n = true →
    (∀ a : Nat, Memory.read m a = Memory.read n a) → m = n

/-! ### Encoding -/

/-- R44, R46: each of the twelve opcode bytes, written out bit by bit, decodes with every two candidate operand bytes to
its instruction with its operands. Nine of the bytes are the spec's decision D1 (log 1). -/
def Obligations.SpecWordsDecode : Prop :=
  ∀ opA opB : Byte,
    decode 0b10000010 opA opB = .instr (.ldi opA.toNat opB) ∧
    decode 0b01000111 opA opB = .instr (.prn opA.toNat) ∧
    decode 0b00000001 opA opB = .instr .hlt ∧
    decode 0b10100000 opA opB = .instr (.add opA.toNat opB.toNat) ∧
    decode 0b10100001 opA opB = .instr (.sub opA.toNat opB.toNat) ∧
    decode 0b10100010 opA opB = .instr (.mul opA.toNat opB.toNat) ∧
    decode 0b10100111 opA opB = .instr (.cmp opA.toNat opB.toNat) ∧
    decode 0b01000101 opA opB = .instr (.push opA.toNat) ∧
    decode 0b01000110 opA opB = .instr (.pop opA.toNat) ∧
    decode 0b01010000 opA opB = .instr (.call opA.toNat) ∧
    decode 0b00010001 opA opB = .instr .ret ∧
    decode 0b01010100 opA opB = .instr (.jmp opA.toNat)

/-- R47: every byte but the twelve, which are distinct and leave 244, is unknown, and 0x00 is one of the 244. -/
def Obligations.UnknownOpcodeBytes : Prop :=
  (∀ ir opA opB : Byte, ir ∉ Op.all.map opcodes → decode ir opA opB = .unknown ir) ∧
  (Op.all.map opcodes).Nodup ∧ 256 - (Op.all.map opcodes).length = 244 ∧
  ∀ opA opB : Byte, decode 0x00 opA opB = .unknown 0x00

/-- R42 to R46: for every opcode map without a shared byte, decoding the encoding of a well-formed instruction gives
it back with every operand, whatever bytes follow it in memory. -/
def Obligations.DecodeOfEncode : Prop :=
  ∀ (m : OpcodeMap) (i : Instr) (next1 next2 : Byte), m.Injective → i.wf = true →
    ∃ ir opA opB tail, encodeWith m i ++ [next1, next2] = ir :: opA :: opB :: tail ∧
      decodeWith m ir opA opB = .instr i

/-- R42 to R44: whatever decodes is well-formed, and its encoding is the bytes it was decoded from, as many of them as
its length. -/
def Obligations.EncodeOfDecode : Prop :=
  ∀ (m : OpcodeMap) (ir opA opB : Byte) (i : Instr), decodeWith m ir opA opB = .instr i →
    i.wf = true ∧ encodeWith m i = [ir, opA, opB].take i.length

/-- R48: a candidate operand byte beyond the instruction's length cannot change what is decoded. -/
def Obligations.UnusedBytesIgnored : Prop :=
  ∀ (m : OpcodeMap) (ir opA opB : Byte) (i : Instr), decodeWith m ir opA opB = .instr i →
    (i.length ≤ 2 → ∀ b : Byte, decodeWith m ir opA b = .instr i) ∧
    (i.length = 1 → ∀ a b : Byte, decodeWith m ir a b = .instr i)

/-! ### The step -/

/-- R56, R57: where the bytes at pc decode to an instruction, the step of a Running core is that instruction's
execution and nothing more: no central post-increment. -/
def Obligations.StepRunsDecoded : Prop :=
  ∀ (s : State) (i : Instr), s.runState = .running → s.pc ≤ 253 → s.decoded opcodes = .instr i →
    step s = exec i s

/-- R55: the lookup key is the whole opcode byte; on a miss the step records it and changes nothing else, and no
further instruction executes. -/
def Obligations.UnknownOpcodeFaults : Prop :=
  ∀ (m : OpcodeMap) (s : State), s.runState = .running → s.pc ≤ 253 →
    ((∀ op, m op ≠ s.byte s.pc) →
      ∃ t, stepWith m s = .next t ∧
        t = { s with runState := .faulted, fault := some (.unknownOpcode (s.byte s.pc)) } ∧
        ∀ u, stepWith m t ≠ .next u) ∧
    (∀ op, m.Injective → m op = s.byte s.pc →
      stepWith m s = exec (op.instr (s.byte (s.pc + 1)) (s.byte (s.pc + 2))) s)

/-- R54, R85 (decision D3): a fetch at 254, 255 or 256 raises `AddressOutOfRange(256)` before any decode, whatever the
byte at pc. -/
def Obligations.FetchAtTopFaults : Prop :=
  ∀ (m : OpcodeMap) (s : State), s.runState = .running → 254 ≤ s.pc → s.pc ≤ 256 →
    stepWith m s = .next { s with runState := .faulted, fault := some (.addressOutOfRange 256) }

/-- R53: a Running core always has a step; a Halted or Faulted core has none, and no other state is reached from it. -/
def Obligations.StepExactlyWhileRunning : Prop :=
  (∀ (m : OpcodeMap) (s : State), (∃ t, stepWith m s = .next t) ↔ s.runState = .running) ∧
  (∀ s t : State, s.runState ≠ .running → Steps s t → t = s)

/-- R22: Running is initial; Running goes to Halted only by HLT and to Faulted only by a raise, and no transition
leaves Halted or Faulted. The raise is in the state the step began in, from a fetch at the top of memory, an opcode byte
no mnemonic has, or a bad register operand; or, in a PUSH or CALL with a bad operand, in the state with SP lowered, for
CALL with the return address stored too. That order of statements is the spec's decision D7 (log 5), the fetch at the top
its decision D3 (log 4). -/
def Obligations.RunStateTransitions : Prop :=
  State.reset.runState = .running ∧
  ∀ (m : OpcodeMap) (s t : State), stepWith m s = .next t →
    s.runState = .running ∧
    (t.runState = .halted → s.decoded m = .instr .hlt) ∧
    (t.runState = .faulted → ∃ (u : State) (f : CoreFault), t = u.raise f ∧
      ((u = s ∧
          (254 ≤ s.pc ∨ (s.pc ≤ 253 ∧ ∀ op, m op ≠ s.byte s.pc) ∨
           (s.pc ≤ 253 ∧ ∃ i, s.decoded m = .instr i ∧ (∃ k ∈ i.regOperands, 8 ≤ k) ∧
              ∀ a, i ≠ .push a ∧ i ≠ .call a))) ∨
       (s.pc ≤ 253 ∧ ∃ a, s.decoded m = .instr (.push a) ∧ 8 ≤ a ∧
          u = { s with regs := s.regs.set 7 (s.sp - 1) }) ∨
       (s.pc ≤ 253 ∧ ∃ a, s.decoded m = .instr (.call a) ∧ 8 ≤ a ∧
          u = { s with regs := s.regs.set 7 (s.sp - 1),
                       mem := Memory.write s.mem (s.sp - 1).toNat (BitVec.ofNat 8 (s.pc + 2)) })))

/-- R81: raising sets the run state and the fault record and nothing else, and control goes nowhere. -/
def Obligations.RaiseIsTerminal : Prop :=
  ∀ (s : State) (f : CoreFault),
    s.raise f = { s with runState := .faulted, fault := some f } ∧
    (∀ m t, stepWith m (s.raise f) ≠ .next t) ∧
    ∀ t, Steps (s.raise f) t → t = s.raise f

/-- R82, R14, R86: the state after a fault. pc and FL and the output are as before; nothing else changed but SP in a
PUSH with a bad index, and SP and the pushed return address in a CALL with a bad index. The order of statements it
rests on is the spec's decision D7 (log 5). -/
def Obligations.FaultedStepIsPrecise : Prop :=
  ∀ (m : OpcodeMap) (s t : State), stepWith m s = .next t → t.runState = .faulted →
    t.pc = s.pc ∧ t.fl = s.fl ∧ t.out = s.out ∧
    ∃ f, t.fault = some f ∧
      (t = s.raise f ∨
       (∃ a, s.decoded m = .instr (.push a) ∧ 8 ≤ a ∧
          t = { s with regs := s.regs.set 7 (s.sp - 1) }.raise f) ∨
       (∃ a, s.decoded m = .instr (.call a) ∧ 8 ≤ a ∧
          t = { s with regs := s.regs.set 7 (s.sp - 1),
                       mem := Memory.write s.mem (s.sp - 1).toNat (BitVec.ofNat 8 (s.pc + 2)) }.raise f))

/-- R78 to R80, R83: each recorded fault tells its cause, and `UnsupportedOperation` is raised by no step. The address
and the index recorded are the spec's decision D8 (log 5). -/
def Obligations.RecordedFaultTellsItsCause : Prop :=
  ∀ (m : OpcodeMap) (s t : State), stepWith m s = .next t → t.runState = .faulted →
    match t.fault with
    | some (.addressOutOfRange a) => 254 ≤ s.pc ∧ a = (max s.pc 256 : Nat)
    | some (.invalidRegister k) => s.pc ≤ 253 ∧ 8 ≤ k ∧ ∃ i, s.decoded m = .instr i ∧ k ∈ i.regOperands
    | some (.unknownOpcode b) => s.pc ≤ 253 ∧ b = s.byte s.pc ∧ ∀ op, m op ≠ b
    | some .unsupportedOperation => False
    | none => False

/-- R79, R85, D8: an instruction with a register operand of 8 or more faults, and the index recorded is that of the
first such operand. -/
def Obligations.BadRegisterFaults : Prop :=
  ∀ (i : Instr) (s : State) (k : Nat), (i.regOperands.find? fun r => decide (8 ≤ r)) = some k →
    ∃ t, exec i s = .next t ∧ t.runState = .faulted ∧ t.fault = some (.invalidRegister k)

/-- R10, R79, R85: an instruction whose register operands are all below 8 completes in every state with no fault; only
HLT changes the run state. -/
def Obligations.GoodRegistersComplete : Prop :=
  ∀ (i : Instr) (s : State), (∀ r ∈ i.regOperands, r < 8) →
    ∃ t, exec i s = .next t ∧ t.fault = s.fault ∧
      (i ≠ .hlt → t.runState = s.runState) ∧ (i = .hlt → t.runState = .halted)

/-! ### Load immediate, print, halt -/

/-- R60, LDI: encoding, effect for every register and immediate with everything else unchanged, and the fault. -/
def Obligations.LdiRule : Prop :=
  (∀ a v : Byte, decode 0x82 a v = .instr (.ldi a.toNat v)) ∧
  (∀ (s : State) (a : Fin 8) (v : Byte),
    exec (.ldi a v) s = .next { s with regs := s.regs.set a v, pc := s.pc + 3 } ∧
    ∀ t, exec (.ldi a v) s = .next t → t.reg a = v) ∧
  (∀ (s : State) (a : Nat) (v : Byte), 8 ≤ a →
    exec (.ldi a v) s = .next { s with runState := .faulted, fault := some (.invalidRegister a) })

/-- R61, PRN: encoding, effect and fault. The output as a list of values is the spec's decision D9 (log 7). -/
def Obligations.PrnRule : Prop :=
  (∀ a b : Byte, decode 0x47 a b = .instr (.prn a.toNat)) ∧
  (∀ (s : State) (a : Fin 8),
    exec (.prn a) s = .next { s with out := s.out ++ [s.reg a], pc := s.pc + 2 }) ∧
  (∀ (s : State) (a : Nat), 8 ≤ a →
    exec (.prn a) s = .next { s with runState := .faulted, fault := some (.invalidRegister a) })

/-- R61: the text of one value is its decimal numeral, with no leading zero, which reads back as the value. -/
def Obligations.DecimalTextReadsBack : Prop :=
  ∀ v : Byte,
    (decimal v).foldl (fun n c => 10 * n + (c.toNat - 48)) 0 = v.toNat ∧
    (decimal v).all Char.isDigit = true ∧ 1 ≤ (decimal v).length ∧
    ((decimal v).head? = some '0' → v = 0 ∧ decimal v = ['0'])

/-- R62, HLT: encoding, the effect with everything else unchanged, and that nothing follows it. -/
def Obligations.HltRule : Prop :=
  (∀ a b : Byte, decode 0x01 a b = .instr .hlt) ∧
  (∀ s : State, exec .hlt s = .next { s with runState := .halted, pc := s.pc + 1 }) ∧
  (∀ s t u : State, exec .hlt s = .next t → Steps t u → u = t)

/-! ### ALU -/

/-- R64 to R66: the sum, the difference and the product, reduced modulo 256, go to the first register, and pc to the next
instruction; nothing else changes, FL among it. -/
def Obligations.ArithmeticResults : Prop :=
  ∀ (s : State) (a b : Fin 8),
    exec (.add a b) s = .next { s with
      regs := s.regs.set a (BitVec.ofNat 8 (((s.reg a).toNat + (s.reg b).toNat) % 256)), pc := s.pc + 3 } ∧
    exec (.sub a b) s = .next { s with
      regs := s.regs.set a (BitVec.ofInt 8 (((s.reg a).toNat - (s.reg b).toNat : Int) % 256)), pc := s.pc + 3 } ∧
    exec (.mul a b) s = .next { s with
      regs := s.regs.set a (BitVec.ofNat 8 (((s.reg a).toNat * (s.reg b).toNat) % 256)), pc := s.pc + 3 }

/-- R67: ADD, SUB and MUL give the exact integer result reduced modulo 256 in the first register only, write no flag
and raise nothing, and the result is also the low byte under a two's-complement reading of the operands. -/
def Obligations.ArithmeticIsExactModulo256 : Prop :=
  ∀ (i : Fin 8 → Fin 8 → Instr) (f : Int → Int → Int),
    (i = (fun a b => .add a b) ∧ f = (· + ·)) ∨ (i = (fun a b => .sub a b) ∧ f = (· - ·)) ∨
      (i = (fun a b => .mul a b) ∧ f = (· * ·)) →
    ∀ (s : State) (a b : Fin 8), ∃ t, exec (i a b) s = .next t ∧
      ((t.reg a).toNat : Int) = f (s.reg a).toNat (s.reg b).toNat % 256 ∧
      (∀ r : Fin 8, r ≠ a → t.reg r = s.reg r) ∧
      t.fl = s.fl ∧ t.runState = s.runState ∧ t.fault = s.fault ∧
      t.reg a = BitVec.ofInt 8 (f (s.reg a).toInt (s.reg b).toInt)

/-- R68, CMP: the flag is that of the order of the values as integers 0 to 255; nothing but FL and pc changes. -/
def Obligations.CmpResult : Prop :=
  ∀ (s : State) (a b : Fin 8),
    ((s.reg a).toNat > (s.reg b).toNat → exec (.cmp a b) s = .next { s with fl := .greater, pc := s.pc + 3 }) ∧
    ((s.reg a).toNat < (s.reg b).toNat → exec (.cmp a b) s = .next { s with fl := .less, pc := s.pc + 3 }) ∧
    ((s.reg a).toNat = (s.reg b).toNat → exec (.cmp a b) s = .next { s with fl := .equal, pc := s.pc + 3 })

/-- R18: after every compare exactly one of the three bits is set, and all three are overwritten: the result does not
depend on what FL held. -/
def Obligations.CompareLeavesOneFlag : Prop :=
  ∀ (s : State) (a b : Fin 8) (old : Fl), ∃ t, exec (.cmp a b) { s with fl := old } = .next t ∧
    (t.fl = .equal ∨ t.fl = .greater ∨ t.fl = .less) ∧
    (((List.range 3).filter fun k => t.fl.bits.getLsbD k).length = 1) ∧
    exec (.cmp a b) s = .next t

/-- The source's property S6 (R68): exchanging the operands of a compare exchanges Greater and Less and keeps Equal. -/
def Obligations.CompareSwapComplements : Prop :=
  ∀ (s t u : State) (a b : Fin 8), exec (.cmp a b) s = .next t → exec (.cmp b a) s = .next u →
    (t.fl = .greater ↔ u.fl = .less) ∧ (t.fl = .less ↔ u.fl = .greater) ∧ (t.fl = .equal ↔ u.fl = .equal)

/-- R63, R64 to R66, R68 (D8): a bad first index is reported before a bad second one, and nothing is written. -/
def Obligations.AluBadIndexFaults : Prop :=
  ∀ (s : State) (a b : Nat) (i : Instr), i = .add a b ∨ i = .sub a b ∨ i = .mul a b ∨ i = .cmp a b →
    (8 ≤ a → exec i s = .next { s with runState := .faulted, fault := some (.invalidRegister a) }) ∧
    (a < 8 → 8 ≤ b → exec i s = .next { s with runState := .faulted, fault := some (.invalidRegister b) })

/-! ### Stack -/

/-- R71, PUSH: the register is read after the decrement, so PUSH R7 pushes the decremented SP. -/
def Obligations.PushResult : Prop :=
  ∀ (s : State) (a : Fin 8), ∃ t, exec (.push a) s = .next t ∧
    t.sp = s.sp - 1 ∧ t.byte (s.sp - 1).toNat = (if a = 7 then s.sp - 1 else s.reg a) ∧ t.pc = s.pc + 2

/-- R72, POP: the byte at SP goes to the register, then SP is incremented; POP R7 increments the byte read. -/
def Obligations.PopResult : Prop :=
  ∀ (s : State) (a : Fin 8), ∃ t, exec (.pop a) s = .next t ∧
    t.reg a = (if a = 7 then s.byte s.sp.toNat + 1 else s.byte s.sp.toNat) ∧
    (a ≠ 7 → t.sp = s.sp + 1) ∧ t.pc = s.pc + 2

/-- R71, R72, R74, R82 (D7): a bad index in PUSH faults after the decrement of SP, in POP with nothing changed, and in
CALL after the whole push; pc is unchanged in all three. -/
def Obligations.StackBadIndexFaults : Prop :=
  ∀ (s : State) (a : Nat), 8 ≤ a →
    exec (.push a) s = .next { s with
      regs := s.regs.set 7 (s.sp - 1), runState := .faulted, fault := some (.invalidRegister a) } ∧
    exec (.pop a) s = .next { s with runState := .faulted, fault := some (.invalidRegister a) } ∧
    (s.pc ≤ 253 → ∃ t, exec (.call a) s = .next t ∧
      t.runState = .faulted ∧ t.fault = some (.invalidRegister a) ∧ t.pc = s.pc ∧
      t.sp = s.sp - 1 ∧ (t.byte (s.sp - 1).toNat).toNat = s.pc + 2)

/-- R12, R34(a), R70: the implicit SP arithmetic wraps modulo 256 and raises nothing, at every value of SP; for POP where
the destination is not R7. -/
def Obligations.StackPointerWraps : Prop :=
  ∀ (s : State) (a : Fin 8),
    (∃ t, exec (.push a) s = .next t ∧ t.fault = s.fault ∧ t.sp.toNat = (s.sp.toNat + 255) % 256) ∧
    (∃ t, exec (.call a) s = .next t ∧ t.fault = s.fault ∧ t.sp.toNat = (s.sp.toNat + 255) % 256) ∧
    (a ≠ 7 → ∃ t, exec (.pop a) s = .next t ∧ t.fault = s.fault ∧ t.sp.toNat = (s.sp.toNat + 1) % 256) ∧
    (∃ t, exec .ret s = .next t ∧ t.fault = s.fault ∧ t.sp.toNat = (s.sp.toNat + 1) % 256)

/-- R72, the source's property S7 as conflict C7 settles it: PUSH r then POP r2 puts the pushed byte into r2 and SP back,
for r2 other than R7; POP R7 leaves the pushed byte plus 1 in SP. -/
def Obligations.PushPopRoundTrip : Prop :=
  ∀ (s : State) (r r2 : Fin 8), ∃ t u, exec (.push r) s = .next t ∧ exec (.pop r2) t = .next u ∧
    (r2 ≠ 7 → u.reg r2 = (if r = 7 then s.sp - 1 else s.reg r) ∧ u.sp = s.sp) ∧
    (r2 = 7 → u.sp = (if r = 7 then s.sp - 1 else s.reg r) + 1)

/-! ### Control transfer -/

/-- R74, CALL: the return address pc + 2 is pushed, then the register, read after the decrement, goes to pc. It is a
byte without reduction wherever a CALL can execute. -/
def Obligations.CallResult : Prop :=
  ∀ (s : State) (a : Fin 8), s.pc ≤ 253 → ∃ t, exec (.call a) s = .next t ∧
    t.sp = s.sp - 1 ∧ (t.byte (s.sp - 1).toNat).toNat = s.pc + 2 ∧
    t.pc = (if a = 7 then s.sp - 1 else s.reg a).toNat

/-- R75, RET: pc takes the byte at SP, then SP is incremented, with everything else unchanged. -/
def Obligations.RetResult : Prop :=
  ∀ s : State, exec .ret s = .next { s with
    pc := (s.byte s.sp.toNat).toNat, regs := s.regs.set 7 (s.sp + 1) }

/-- R76, JMP: pc takes the register's byte and nothing else changes; with a bad index nothing but the fault happens. -/
def Obligations.JmpResult : Prop :=
  (∀ (s : State) (a : Fin 8), exec (.jmp a) s = .next { s with pc := (s.reg a).toNat }) ∧
  (∀ (s : State) (a : Nat), 8 ≤ a →
    exec (.jmp a) s = .next { s with runState := .faulted, fault := some (.invalidRegister a) })

/-- R75, the source's property S8: after a CALL, a RET in any state that has SP and the stack cell as the CALL left them
resumes at the address after the CALL and puts SP back. -/
def Obligations.CallRetRoundTrip : Prop :=
  ∀ (s : State) (a : Fin 8), s.pc ≤ 253 → ∃ t, exec (.call a) s = .next t ∧
    ∀ u, u.sp = t.sp → u.byte t.sp.toNat = t.byte t.sp.toNat →
      ∃ w, exec .ret u = .next w ∧ w.pc = s.pc + 2 ∧ w.sp = s.sp

/-- R58, R76: a JMP to its own address runs for ever and the state never changes. -/
def Obligations.SelfJumpRunsForever : Prop :=
  ∀ (s : State) (a : Fin 8), s.runState = .running → s.pc ≤ 253 → s.decoded opcodes = .instr (.jmp a) →
    (s.reg a).toNat = s.pc → step s = .next s ∧ s.RunsForever

/-! ### Frames -/

/-- What LDI, ADD, SUB and MUL leave unchanged: every register but the destination, FL, the output, every byte of
memory; and the run state and fault record unless the instruction faults. -/
def Obligations.FrameOfRegisterWriters : Prop :=
  ∀ (s t : State) (a b : Nat) (v : Byte) (i : Instr),
    i = .ldi a v ∨ i = .add a b ∨ i = .sub a b ∨ i = .mul a b → exec i s = .next t →
    (∀ r : Fin 8, r.val ≠ a → t.reg r = s.reg r) ∧ t.fl = s.fl ∧ t.out = s.out ∧
    (∀ x : Nat, t.byte x = s.byte x) ∧
    ((t.runState = s.runState ∧ t.fault = s.fault) ∨
     (t.runState = .faulted ∧ ∃ k, t.fault = some (.invalidRegister k)))

/-- What PRN, CMP, JMP and HLT leave unchanged: every register and every byte of memory; FL but for CMP; the output but
for PRN; the run state but for HLT and a fault; the fault record but for a fault. -/
def Obligations.FrameOfRegisterReaders : Prop :=
  ∀ (s t : State) (a b : Nat) (i : Instr),
    i = .prn a ∨ i = .cmp a b ∨ i = .jmp a ∨ i = .hlt → exec i s = .next t →
    (∀ r : Fin 8, t.reg r = s.reg r) ∧ (∀ x : Nat, t.byte x = s.byte x) ∧
    (i ≠ .cmp a b → t.fl = s.fl) ∧ (i ≠ .prn a → t.out = s.out) ∧
    (((i ≠ .hlt → t.runState = s.runState) ∧ t.fault = s.fault) ∨
     (t.runState = .faulted ∧ ∃ k, t.fault = some (.invalidRegister k)))

/-- What PUSH and CALL leave unchanged: every register but SP, FL, the output, and every byte of memory but the one at
the decremented SP. -/
def Obligations.FrameOfPushes : Prop :=
  ∀ (s t : State) (a : Nat) (i : Instr), i = .push a ∨ i = .call a → exec i s = .next t →
    (∀ r : Fin 8, r ≠ 7 → t.reg r = s.reg r) ∧ t.fl = s.fl ∧ t.out = s.out ∧
    (∀ x : Nat, x ≠ s.decSp.sp.toNat → t.byte x = s.byte x) ∧
    ((t.runState = s.runState ∧ t.fault = s.fault) ∨
     (t.runState = .faulted ∧ t.fault = some (.invalidRegister a)))

/-- What POP and RET leave unchanged: every register but SP and POP's destination, FL, the output, and every byte of
memory, the popped one included. -/
def Obligations.FrameOfPops : Prop :=
  ∀ (s t : State) (a : Nat) (i : Instr), i = .pop a ∨ i = .ret → exec i s = .next t →
    (∀ r : Fin 8, r ≠ 7 → (i = .pop a → r.val ≠ a) → t.reg r = s.reg r) ∧ t.fl = s.fl ∧ t.out = s.out ∧
    (∀ x : Nat, t.byte x = s.byte x) ∧
    ((t.runState = s.runState ∧ t.fault = s.fault) ∨
     (i = .pop a ∧ t.runState = .faulted ∧ t.fault = some (.invalidRegister a)))

/-! ### The whole machine -/

/-- R13, R24, R26: a step keeps pc in 0 to 256, memory in its canonical form, and the fault record present exactly in the
Faulted state, under any opcode map. -/
def Obligations.StepKeepsInv : Prop :=
  ∀ (m : OpcodeMap) (s t : State), s.Inv → stepWith m s = .next t → t.Inv

/-- The invariant holds at reset. -/
def Obligations.ResetHasInv : Prop := State.reset.Inv

/-- R14, R43, R56: an instruction that is no control transfer and does not fault advances pc by its own length. -/
def Obligations.AdvanceByLength : Prop :=
  ∀ (i : Instr) (s t : State), exec i s = .next t → i.isTransfer = false →
    (∀ r ∈ i.regOperands, r < 8) → t.pc = s.pc + i.length

/-- R20: whatever step changes FL is a CMP. -/
def Obligations.OnlyCmpWritesFl : Prop :=
  ∀ (m : OpcodeMap) (s t : State), stepWith m s = .next t → t.fl ≠ s.fl →
    ∃ a b : Fin 8, s.decoded m = .instr (.cmp a b)

/-- R20: no instruction reads FL. A run of k steps from a state that differs only in FL gives a state that differs only
in FL. -/
def Obligations.FlIsNeverRead : Prop :=
  ∀ (k : Nat) (s t : State) (f : Fl), Host.Core.run core k s = .next t →
    ∃ t', Host.Core.run core k { s with fl := f } = .next t' ∧ { t' with fl := t.fl } = t

/-- R24(a), R61: the output only grows, by one value, and only by a PRN. -/
def Obligations.OnlyPrnEmits : Prop :=
  ∀ (m : OpcodeMap) (s t : State), stepWith m s = .next t →
    t.out = s.out ∨ ∃ a : Fin 8, s.decoded m = .instr (.prn a) ∧ t.out = s.out ++ [s.reg a]

/-- R8 to R10: whatever step changes a register names it as its destination, or is a stack instruction and the register
is R7; so R5 and R6 change by explicit use alone. -/
def Obligations.RegistersChangeOnlyByUse : Prop :=
  ∀ (m : OpcodeMap) (s t : State) (r : Fin 8), stepWith m s = .next t → t.reg r ≠ s.reg r →
    ∃ i, s.decoded m = .instr i ∧ (i.destination = some r.val ∨ (r = 7 ∧ i.usesStack = true))

/-- R29: whatever step changes a byte of memory is a PUSH or a CALL, and the byte is at the decremented SP. -/
def Obligations.OnlyPushesWriteMemory : Prop :=
  ∀ (m : OpcodeMap) (s t : State) (x : Nat), stepWith m s = .next t → t.byte x ≠ s.byte x →
    x = (s.sp - 1).toNat ∧ ∃ a, s.decoded m = .instr (.push a) ∨ s.decoded m = .instr (.call a)

/-- R40: a store into the instruction stream is seen by the next fetch. Where a PUSH writes the byte after itself, the
next step decodes the pushed byte as its opcode. -/
def Obligations.PushedByteIsFetchedNext : Prop :=
  ∀ (s : State) (a : Fin 8), s.runState = .running → s.pc ≤ 251 → s.decoded opcodes = .instr (.push a) →
    (s.sp - 1).toNat = s.pc + 2 →
    ∃ t, step s = .next t ∧
      step t = execDecoded (decode (if a = 7 then s.sp - 1 else s.reg a) (s.byte (s.pc + 3)) (s.byte (s.pc + 4))) t

/-- R40, R42, R57: a well-formed instruction's encoding, stored at pc by memory writes, is the instruction the next step
executes, under any opcode map without a shared byte. -/
def Obligations.StoredEncodingRuns : Prop :=
  ∀ (m : OpcodeMap) (i : Instr) (s : State), m.Injective → i.wf = true → s.runState = .running → s.pc ≤ 253 →
    stepWith m (s.storeBytes s.pc (encodeWith m i)) = exec i (s.storeBytes s.pc (encodeWith m i))

/-- R62, R99: in every Halted state a run reaches, the byte before pc is HLT's opcode, and that address is at most 253. -/
def Obligations.HaltedPcFollowsHlt : Prop :=
  ∀ s t : State, s.runState = .running → Steps s t → t.runState = .halted →
    1 ≤ t.pc ∧ t.pc ≤ 254 ∧ t.byte (t.pc - 1) = 0x01
end

