-- ==== Sys2Proof/Laws/State.lean ====
section
/-! SUPPORT. The small lemmas of the state's updates: one per field per update, and what a register cell reads as
after each, so that no later proof unfolds a record update. -/

namespace Sys2Proof.Machine

/-! ### raise -/

@[simp] theorem State.regs_raise (s : State) (f : CoreFault) : (s.raise f).regs = s.regs := rfl
@[simp] theorem State.pc_raise (s : State) (f : CoreFault) : (s.raise f).pc = s.pc := rfl
@[simp] theorem State.fl_raise (s : State) (f : CoreFault) : (s.raise f).fl = s.fl := rfl
@[simp] theorem State.runState_raise (s : State) (f : CoreFault) : (s.raise f).runState = .faulted := rfl
@[simp] theorem State.mem_raise (s : State) (f : CoreFault) : (s.raise f).mem = s.mem := rfl
@[simp] theorem State.out_raise (s : State) (f : CoreFault) : (s.raise f).out = s.out := rfl
@[simp] theorem State.fault_raise (s : State) (f : CoreFault) : (s.raise f).fault = some f := rfl

/-! ### setByte -/

@[simp] theorem State.regs_setByte (s : State) (a : Nat) (v : Byte) : (s.setByte a v).regs = s.regs := rfl
@[simp] theorem State.pc_setByte (s : State) (a : Nat) (v : Byte) : (s.setByte a v).pc = s.pc := rfl
@[simp] theorem State.fl_setByte (s : State) (a : Nat) (v : Byte) : (s.setByte a v).fl = s.fl := rfl
@[simp] theorem State.runState_setByte (s : State) (a : Nat) (v : Byte) : (s.setByte a v).runState = s.runState := rfl
@[simp] theorem State.mem_setByte (s : State) (a : Nat) (v : Byte) : (s.setByte a v).mem = Memory.write s.mem a v := rfl
@[simp] theorem State.out_setByte (s : State) (a : Nat) (v : Byte) : (s.setByte a v).out = s.out := rfl
@[simp] theorem State.fault_setByte (s : State) (a : Nat) (v : Byte) : (s.setByte a v).fault = s.fault := rfl

/-! ### setReg -/

theorem State.regs_setReg (s : State) (i : Fin 8) (v : Byte) : (s.setReg i v).regs = s.regs.set i v := rfl
@[simp] theorem State.pc_setReg (s : State) (i : Fin 8) (v : Byte) : (s.setReg i v).pc = s.pc := rfl
@[simp] theorem State.fl_setReg (s : State) (i : Fin 8) (v : Byte) : (s.setReg i v).fl = s.fl := rfl
@[simp] theorem State.runState_setReg (s : State) (i : Fin 8) (v : Byte) : (s.setReg i v).runState = s.runState := rfl
@[simp] theorem State.mem_setReg (s : State) (i : Fin 8) (v : Byte) : (s.setReg i v).mem = s.mem := rfl
@[simp] theorem State.out_setReg (s : State) (i : Fin 8) (v : Byte) : (s.setReg i v).out = s.out := rfl
@[simp] theorem State.fault_setReg (s : State) (i : Fin 8) (v : Byte) : (s.setReg i v).fault = s.fault := rfl

/-! ### setSp -/

theorem State.regs_setSp (s : State) (v : Byte) : (s.setSp v).regs = s.regs.set 7 v := rfl
@[simp] theorem State.pc_setSp (s : State) (v : Byte) : (s.setSp v).pc = s.pc := rfl
@[simp] theorem State.fl_setSp (s : State) (v : Byte) : (s.setSp v).fl = s.fl := rfl
@[simp] theorem State.runState_setSp (s : State) (v : Byte) : (s.setSp v).runState = s.runState := rfl
@[simp] theorem State.mem_setSp (s : State) (v : Byte) : (s.setSp v).mem = s.mem := rfl
@[simp] theorem State.out_setSp (s : State) (v : Byte) : (s.setSp v).out = s.out := rfl
@[simp] theorem State.fault_setSp (s : State) (v : Byte) : (s.setSp v).fault = s.fault := rfl

/-! ### decSp -/

theorem State.regs_decSp (s : State) : s.decSp.regs = s.regs.set 7 (s.sp - 1) := rfl
@[simp] theorem State.pc_decSp (s : State) : s.decSp.pc = s.pc := rfl
@[simp] theorem State.fl_decSp (s : State) : s.decSp.fl = s.fl := rfl
@[simp] theorem State.runState_decSp (s : State) : s.decSp.runState = s.runState := rfl
@[simp] theorem State.mem_decSp (s : State) : s.decSp.mem = s.mem := rfl
@[simp] theorem State.out_decSp (s : State) : s.decSp.out = s.out := rfl
@[simp] theorem State.fault_decSp (s : State) : s.decSp.fault = s.fault := rfl

/-! ### incSp -/

theorem State.regs_incSp (s : State) : s.incSp.regs = s.regs.set 7 (s.sp + 1) := rfl
@[simp] theorem State.pc_incSp (s : State) : s.incSp.pc = s.pc := rfl
@[simp] theorem State.fl_incSp (s : State) : s.incSp.fl = s.fl := rfl
@[simp] theorem State.runState_incSp (s : State) : s.incSp.runState = s.runState := rfl
@[simp] theorem State.mem_incSp (s : State) : s.incSp.mem = s.mem := rfl
@[simp] theorem State.out_incSp (s : State) : s.incSp.out = s.out := rfl
@[simp] theorem State.fault_incSp (s : State) : s.incSp.fault = s.fault := rfl

/-! ### advance -/

@[simp] theorem State.regs_advance (s : State) (n : Nat) : (s.advance n).regs = s.regs := rfl
@[simp] theorem State.pc_advance (s : State) (n : Nat) : (s.advance n).pc = s.pc + n := rfl
@[simp] theorem State.fl_advance (s : State) (n : Nat) : (s.advance n).fl = s.fl := rfl
@[simp] theorem State.runState_advance (s : State) (n : Nat) : (s.advance n).runState = s.runState := rfl
@[simp] theorem State.mem_advance (s : State) (n : Nat) : (s.advance n).mem = s.mem := rfl
@[simp] theorem State.out_advance (s : State) (n : Nat) : (s.advance n).out = s.out := rfl
@[simp] theorem State.fault_advance (s : State) (n : Nat) : (s.advance n).fault = s.fault := rfl

/-! ### jumpTo -/

@[simp] theorem State.regs_jumpTo (s : State) (v : Byte) : (s.jumpTo v).regs = s.regs := rfl
@[simp] theorem State.pc_jumpTo (s : State) (v : Byte) : (s.jumpTo v).pc = v.toNat := rfl
@[simp] theorem State.fl_jumpTo (s : State) (v : Byte) : (s.jumpTo v).fl = s.fl := rfl
@[simp] theorem State.runState_jumpTo (s : State) (v : Byte) : (s.jumpTo v).runState = s.runState := rfl
@[simp] theorem State.mem_jumpTo (s : State) (v : Byte) : (s.jumpTo v).mem = s.mem := rfl
@[simp] theorem State.out_jumpTo (s : State) (v : Byte) : (s.jumpTo v).out = s.out := rfl
@[simp] theorem State.fault_jumpTo (s : State) (v : Byte) : (s.jumpTo v).fault = s.fault := rfl

/-! ### setFl -/

@[simp] theorem State.regs_setFl (s : State) (f : Fl) : (s.setFl f).regs = s.regs := rfl
@[simp] theorem State.pc_setFl (s : State) (f : Fl) : (s.setFl f).pc = s.pc := rfl
@[simp] theorem State.fl_setFl (s : State) (f : Fl) : (s.setFl f).fl = f := rfl
@[simp] theorem State.runState_setFl (s : State) (f : Fl) : (s.setFl f).runState = s.runState := rfl
@[simp] theorem State.mem_setFl (s : State) (f : Fl) : (s.setFl f).mem = s.mem := rfl
@[simp] theorem State.out_setFl (s : State) (f : Fl) : (s.setFl f).out = s.out := rfl
@[simp] theorem State.fault_setFl (s : State) (f : Fl) : (s.setFl f).fault = s.fault := rfl

/-! ### emit -/

@[simp] theorem State.regs_emit (s : State) (v : Byte) : (s.emit v).regs = s.regs := rfl
@[simp] theorem State.pc_emit (s : State) (v : Byte) : (s.emit v).pc = s.pc := rfl
@[simp] theorem State.fl_emit (s : State) (v : Byte) : (s.emit v).fl = s.fl := rfl
@[simp] theorem State.runState_emit (s : State) (v : Byte) : (s.emit v).runState = s.runState := rfl
@[simp] theorem State.mem_emit (s : State) (v : Byte) : (s.emit v).mem = s.mem := rfl
@[simp] theorem State.out_emit (s : State) (v : Byte) : (s.emit v).out = s.out ++ [v] := rfl
@[simp] theorem State.fault_emit (s : State) (v : Byte) : (s.emit v).fault = s.fault := rfl

/-! ### halt -/

@[simp] theorem State.regs_halt (s : State) : s.halt.regs = s.regs := rfl
@[simp] theorem State.pc_halt (s : State) : s.halt.pc = s.pc := rfl
@[simp] theorem State.fl_halt (s : State) : s.halt.fl = s.fl := rfl
@[simp] theorem State.runState_halt (s : State) : s.halt.runState = .halted := rfl
@[simp] theorem State.mem_halt (s : State) : s.halt.mem = s.mem := rfl
@[simp] theorem State.out_halt (s : State) : s.halt.out = s.out := rfl
@[simp] theorem State.fault_halt (s : State) : s.halt.fault = s.fault := rfl

/-! ### Register and memory cells after an update -/

@[simp] theorem State.reg_setReg_same (s : State) (i : Fin 8) (v : Byte) : (s.setReg i v).reg i = v := by
  simp [State.reg, State.setReg]

theorem State.reg_setReg_ne (s : State) {i j : Fin 8} (v : Byte) (h : j ≠ i) :
    (s.setReg i v).reg j = s.reg j := by
  have hij : (i : Nat) ≠ j := fun e => h (Fin.ext e.symm)
  simp [State.reg, State.setReg, Vector.getElem_set_ne, hij]

theorem State.reg_setReg (s : State) (i j : Fin 8) (v : Byte) :
    (s.setReg i v).reg j = if j = i then v else s.reg j := by
  by_cases h : j = i
  · simp [h]
  · simp [h, State.reg_setReg_ne]

/-! The register cells after an update that names none. -/

@[simp] theorem State.reg_raise (s : State) (f : CoreFault) (r : Fin 8) : (s.raise f).reg r = s.reg r := rfl
@[simp] theorem State.reg_setByte (s : State) (a : Nat) (v : Byte) (r : Fin 8) : (s.setByte a v).reg r = s.reg r := rfl
@[simp] theorem State.reg_advance (s : State) (n : Nat) (r : Fin 8) : (s.advance n).reg r = s.reg r := rfl
@[simp] theorem State.reg_jumpTo (s : State) (v : Byte) (r : Fin 8) : (s.jumpTo v).reg r = s.reg r := rfl
@[simp] theorem State.reg_setFl (s : State) (f : Fl) (r : Fin 8) : (s.setFl f).reg r = s.reg r := rfl
@[simp] theorem State.reg_emit (s : State) (v : Byte) (r : Fin 8) : (s.emit v).reg r = s.reg r := rfl
@[simp] theorem State.reg_halt (s : State) (r : Fin 8) : s.halt.reg r = s.reg r := rfl

/-! SP after every update. -/

@[simp] theorem State.sp_raise (s : State) (f : CoreFault) : (s.raise f).sp = s.sp := rfl
@[simp] theorem State.sp_setByte (s : State) (a : Nat) (v : Byte) : (s.setByte a v).sp = s.sp := rfl
@[simp] theorem State.sp_advance (s : State) (n : Nat) : (s.advance n).sp = s.sp := rfl
@[simp] theorem State.sp_jumpTo (s : State) (v : Byte) : (s.jumpTo v).sp = s.sp := rfl
@[simp] theorem State.sp_setFl (s : State) (f : Fl) : (s.setFl f).sp = s.sp := rfl
@[simp] theorem State.sp_emit (s : State) (v : Byte) : (s.emit v).sp = s.sp := rfl
@[simp] theorem State.sp_halt (s : State) : s.halt.sp = s.sp := rfl
@[simp] theorem State.sp_setSp (s : State) (v : Byte) : (s.setSp v).sp = v := by simp [State.sp, State.setSp]
@[simp] theorem State.sp_decSp (s : State) : s.decSp.sp = s.sp - 1 := by simp [State.decSp]
@[simp] theorem State.sp_incSp (s : State) : s.incSp.sp = s.sp + 1 := by simp [State.incSp]

theorem State.reg_seven (s : State) : s.reg 7 = s.sp := rfl

theorem State.reg_decSp_ne (s : State) {r : Fin 8} (h : r ≠ 7) : s.decSp.reg r = s.reg r :=
  State.reg_setReg_ne s _ h

theorem State.reg_incSp_ne (s : State) {r : Fin 8} (h : r ≠ 7) : s.incSp.reg r = s.reg r :=
  State.reg_setReg_ne s _ h

/-! The memory cells after an update that is no store. -/

@[simp] theorem State.byte_raise (s : State) (f : CoreFault) (b : Nat) : (s.raise f).byte b = s.byte b := rfl
@[simp] theorem State.byte_setReg (s : State) (i : Fin 8) (v : Byte) (b : Nat) : (s.setReg i v).byte b = s.byte b := rfl
@[simp] theorem State.byte_setSp (s : State) (v : Byte) (b : Nat) : (s.setSp v).byte b = s.byte b := rfl
@[simp] theorem State.byte_decSp (s : State) (b : Nat) : s.decSp.byte b = s.byte b := rfl
@[simp] theorem State.byte_incSp (s : State) (b : Nat) : s.incSp.byte b = s.byte b := rfl
@[simp] theorem State.byte_advance (s : State) (n : Nat) (b : Nat) : (s.advance n).byte b = s.byte b := rfl
@[simp] theorem State.byte_jumpTo (s : State) (v : Byte) (b : Nat) : (s.jumpTo v).byte b = s.byte b := rfl
@[simp] theorem State.byte_setFl (s : State) (f : Fl) (b : Nat) : (s.setFl f).byte b = s.byte b := rfl
@[simp] theorem State.byte_emit (s : State) (v : Byte) (b : Nat) : (s.emit v).byte b = s.byte b := rfl
@[simp] theorem State.byte_halt (s : State) (b : Nat) : s.halt.byte b = s.byte b := rfl

end Sys2Proof.Machine
end

