-- ==== Sys2Proof/Laws/Memory.lean ====
section
/-! SUPPORT. The laws of memory: reading after a write, for any list of cells; and that every memory operation keeps
the canonical form. -/

namespace Sys2Proof.Machine

/-! ### Reading after a write -/

@[simp] theorem Memory.read_nil (x : Nat) : Memory.read [] x = memReset := rfl

theorem Memory.read_cons (a : Nat) (v : Byte) (m : Memory) (x : Nat) :
    Memory.read ((a, v) :: m) x = if a = x then v else Memory.read m x := rfl

theorem Memory.read_filter_same (m : Memory) (x : Nat) :
    Memory.read (m.filter fun c => c.1 != x) x = memReset := by
  induction m with
  | nil => rfl
  | cons c m ih =>
    obtain ⟨a, v⟩ := c
    by_cases h : a = x
    · simpa [List.filter_cons, h] using ih
    · simpa [List.filter_cons, h, Memory.read_cons] using ih

theorem Memory.read_filter_ne (m : Memory) {x y : Nat} (h : y ≠ x) :
    Memory.read (m.filter fun c => c.1 != x) y = Memory.read m y := by
  induction m with
  | nil => rfl
  | cons c m ih =>
    obtain ⟨a, v⟩ := c
    by_cases hx : a = x
    · have hy : a ≠ y := fun e => h (e ▸ hx)
      simpa [List.filter_cons, hx, Memory.read_cons, hx ▸ hy] using ih
    · simp [hx, Memory.read_cons, ih]

theorem Memory.read_insert_ne (m : Memory) {x y : Nat} (v : Byte) (h : y ≠ x) :
    Memory.read (Memory.insert x v m) y = Memory.read m y := by
  induction m with
  | nil => simp [Memory.insert, Memory.read_cons, Ne.symm h]
  | cons c m ih =>
    obtain ⟨a, w⟩ := c
    by_cases hx : x < a
    · simp [Memory.insert, hx, Memory.read_cons, Ne.symm h]
    · simp [Memory.insert, hx, Memory.read_cons, ih]

theorem Memory.read_insert_same (m : Memory) (x : Nat) (v : Byte) (h : ∀ c ∈ m, c.1 ≠ x) :
    Memory.read (Memory.insert x v m) x = v := by
  induction m with
  | nil => simp [Memory.insert, Memory.read_cons]
  | cons c m ih =>
    obtain ⟨a, w⟩ := c
    have ha : a ≠ x := h (a, w) (by simp)
    by_cases hx : x < a
    · simp [Memory.insert, hx, Memory.read_cons]
    · simp [Memory.insert, hx, Memory.read_cons, ha, ih fun c hc => h c (by simp [hc])]

/-- A write gives the addressed cell the byte written (20_memory.md R28). -/
@[simp] theorem Memory.read_write_same (m : Memory) (x : Nat) (v : Byte) :
    Memory.read (Memory.write m x v) x = v := by
  by_cases hv : v = memReset
  · simp [Memory.write, hv, Memory.read_filter_same]
  · simp only [Memory.write, if_neg hv]
    exact Memory.read_insert_same _ x v fun c hc => by simpa using (List.mem_filter.mp hc).2

/-- A write changes no other cell (20_memory.md R28). -/
theorem Memory.read_write_ne (m : Memory) {x y : Nat} (v : Byte) (h : y ≠ x) :
    Memory.read (Memory.write m x v) y = Memory.read m y := by
  by_cases hv : v = memReset
  · simp [Memory.write, hv, Memory.read_filter_ne m h]
  · simp [Memory.write, hv, Memory.read_insert_ne _ v h, Memory.read_filter_ne m h]

@[simp] theorem State.byte_setByte_same (s : State) (a : Nat) (v : Byte) : (s.setByte a v).byte a = v :=
  Memory.read_write_same s.mem a v

theorem State.byte_setByte_ne (s : State) {a b : Nat} (v : Byte) (h : b ≠ a) :
    (s.setByte a v).byte b = s.byte b :=
  Memory.read_write_ne s.mem v h

/-! ### Storing several bytes -/

/-- What every cell holds after bytes are stored at addresses that all have cells. -/
theorem State.byte_storeBytes (bs : List Byte) (s : State) (a k : Nat) (h : a + bs.length ≤ 256) :
    (s.storeBytes a bs).byte k = if a ≤ k ∧ k < a + bs.length then bs.getD (k - a) 0 else s.byte k := by
  induction bs generalizing s a with
  | nil => simp [State.storeBytes]
  | cons b bs ih =>
    simp only [List.length_cons] at h
    have ha : a < 256 := by omega
    rw [State.storeBytes, ih _ _ (by omega)]
    simp only [ha, if_true]
    by_cases hk : k = a
    · subst hk
      simp
    · rw [State.byte_setByte_ne _ _ hk]
      by_cases h1 : a + 1 ≤ k ∧ k < a + 1 + bs.length
      · rw [if_pos h1, if_pos (by simp only [List.length_cons]; omega), show k - a = (k - (a + 1)) + 1 by omega]
        rfl
      · rw [if_neg h1, if_neg (by simp only [List.length_cons]; omega)]

/-- Storing bytes changes memory alone. -/
theorem State.storeBytes_mem_only (bs : List Byte) (s : State) (a : Nat) :
    ∃ m, s.storeBytes a bs = { s with mem := m } := by
  induction bs generalizing s a with
  | nil => exact ⟨s.mem, rfl⟩
  | cons b bs ih =>
    rw [State.storeBytes]
    by_cases ha : a < 256
    · obtain ⟨m, hm⟩ := ih (s.setByte a b) (a + 1)
      exact ⟨m, by simpa [ha] using hm⟩
    · obtain ⟨m, hm⟩ := ih s (a + 1)
      exact ⟨m, by simpa [ha] using hm⟩

/-! ### The canonical form -/

theorem Memory.wf_cons_iff (a : Nat) (v : Byte) (m : Memory) :
    Memory.wf ((a, v) :: m) = true ↔ a < 256 ∧ v ≠ memReset ∧ (∀ c ∈ m, a < c.1) ∧ Memory.wf m = true := by
  simp [Memory.wf, and_assoc]

theorem Memory.wf_filter (m : Memory) (p : Host.Cell → Bool) (h : Memory.wf m = true) :
    Memory.wf (m.filter p) = true := by
  induction m with
  | nil => rfl
  | cons c m ih =>
    obtain ⟨a, v⟩ := c
    obtain ⟨ha, hv, hm, hw⟩ := (Memory.wf_cons_iff a v m).mp h
    by_cases hp : p (a, v) = true
    · rw [List.filter_cons_of_pos hp]
      exact (Memory.wf_cons_iff a v _).mpr ⟨ha, hv, fun c hc => hm c (List.mem_filter.mp hc).1, ih hw⟩
    · rw [List.filter_cons_of_neg hp]
      exact ih hw

theorem Memory.mem_insert (m : Memory) (x : Nat) (v : Byte) (c : Host.Cell) (h : c ∈ Memory.insert x v m) :
    c = (x, v) ∨ c ∈ m := by
  induction m with
  | nil => simpa [Memory.insert] using h
  | cons d m ih =>
    obtain ⟨a, w⟩ := d
    by_cases hx : x < a
    · simpa [Memory.insert, hx] using h
    · rcases (by simpa [Memory.insert, hx] using h : c = (a, w) ∨ c ∈ Memory.insert x v m) with rfl | h
      · exact .inr (by simp)
      · exact (ih h).imp id fun hc => List.mem_cons_of_mem _ hc

theorem Memory.wf_insert (m : Memory) (x : Nat) (v : Byte) (h : Memory.wf m = true) (hx : x < 256)
    (hv : v ≠ memReset) (hm : ∀ c ∈ m, c.1 ≠ x) : Memory.wf (Memory.insert x v m) = true := by
  induction m with
  | nil => exact (Memory.wf_cons_iff x v []).mpr ⟨hx, hv, by simp, rfl⟩
  | cons d m ih =>
    obtain ⟨a, w⟩ := d
    obtain ⟨ha, hw, hall, hwf⟩ := (Memory.wf_cons_iff a w m).mp h
    have hax : a ≠ x := hm (a, w) (by simp)
    by_cases hlt : x < a
    · simp only [Memory.insert, if_pos hlt]
      refine (Memory.wf_cons_iff x v _).mpr ⟨hx, hv, fun c hc => ?_, h⟩
      rcases List.mem_cons.mp hc with rfl | hc
      · exact hlt
      · exact Nat.lt_trans hlt (hall c hc)
    · simp only [Memory.insert, if_neg hlt]
      refine (Memory.wf_cons_iff a w _).mpr ⟨ha, hw, fun c hc => ?_, ih hwf fun c hc => hm c (by simp [hc])⟩
      rcases Memory.mem_insert m x v c hc with rfl | hc
      · exact Nat.lt_of_le_of_ne (Nat.le_of_not_lt hlt) hax
      · exact hall c hc

/-- A write to an address that has a cell keeps the canonical form. -/
theorem Memory.wf_write (m : Memory) (x : Nat) (v : Byte) (h : Memory.wf m = true) (hx : x < 256) :
    Memory.wf (Memory.write m x v) = true := by
  by_cases hv : v = memReset
  · simpa [Memory.write, hv] using Memory.wf_filter m _ h
  · simp only [Memory.write, if_neg hv]
    exact Memory.wf_insert _ x v (Memory.wf_filter m _ h) hx hv fun c hc => by
      simpa using (List.mem_filter.mp hc).2

theorem State.storeBytes_wf (s : State) (addr : Nat) (bs : List Byte) (h : Memory.wf s.mem = true) :
    Memory.wf (s.storeBytes addr bs).mem = true := by
  induction bs generalizing s addr with
  | nil => exact h
  | cons b bs ih =>
    refine ih _ _ ?_
    by_cases ha : addr < 256
    · simpa [ha] using Memory.wf_write s.mem addr b h ha
    · simpa [ha] using h

/-- Memory after reset lists nothing, which is the canonical form. -/
theorem reset_mem_wf : Memory.wf State.reset.mem = true := rfl

end Sys2Proof.Machine
end

