-- ==== Sys2Proof/Laws/Ops.lean ====
section
/-! SUPPORT. One equation per case of each shared operation, and one inversion lemma that says everything the
operation can do when it answers a next state. -/

namespace Sys2Proof.Machine

/-! ### Registers -/

@[simp] theorem State.readReg_fin (s : State) (i : Fin 8) (rest : Byte → Result) :
    s.readReg i rest = rest (s.reg i) := by
  simp [State.readReg]

theorem State.readReg_ge (s : State) {i : Nat} (rest : Byte → Result) (h : 8 ≤ i) :
    s.readReg i rest = .next (s.raise (.invalidRegister i)) := by
  simp [State.readReg, Nat.not_lt.mpr h]

theorem State.readReg_next {s t : State} {i : Nat} {rest : Byte → Result} (h : s.readReg i rest = .next t) :
    (∃ r : Fin 8, r.val = i ∧ rest (s.reg r) = .next t) ∨
    (8 ≤ i ∧ t = s.raise (.invalidRegister i)) := by
  by_cases hi : i < 8
  · exact .inl ⟨⟨i, hi⟩, rfl, by simpa [State.readReg, hi] using h⟩
  · refine .inr ⟨Nat.le_of_not_lt hi, ?_⟩
    rw [State.readReg_ge s rest (Nat.le_of_not_lt hi)] at h
    exact (Host.Outcome.next.inj h).symm

@[simp] theorem State.writeReg_fin (s : State) (i : Fin 8) (v : Byte) (rest : State → Result) :
    s.writeReg i v rest = rest (s.setReg i v) := by
  simp [State.writeReg]

theorem State.writeReg_ge (s : State) {i : Nat} (v : Byte) (rest : State → Result) (h : 8 ≤ i) :
    s.writeReg i v rest = .next (s.raise (.invalidRegister i)) := by
  simp [State.writeReg, Nat.not_lt.mpr h]

theorem State.writeReg_next {s t : State} {i : Nat} {v : Byte} {rest : State → Result}
    (h : s.writeReg i v rest = .next t) :
    (∃ r : Fin 8, r.val = i ∧ rest (s.setReg r v) = .next t) ∨
    (8 ≤ i ∧ t = s.raise (.invalidRegister i)) := by
  by_cases hi : i < 8
  · exact .inl ⟨⟨i, hi⟩, rfl, by simpa [State.writeReg, hi] using h⟩
  · refine .inr ⟨Nat.le_of_not_lt hi, ?_⟩
    rw [State.writeReg_ge s v rest (Nat.le_of_not_lt hi)] at h
    exact (Host.Outcome.next.inj h).symm

/-! ### Memory -/

theorem State.memRead_nat (s : State) {a : Nat} (rest : Byte → Result) (h : a < 256) :
    s.memRead a rest = rest (s.byte a) := by
  have hc : (0 : Int) ≤ a ∧ (a : Int) < 256 := by omega
  simp [State.memRead, hc]

theorem State.memRead_out (s : State) {a : Int} (rest : Byte → Result) (h : ¬(0 ≤ a ∧ a < 256)) :
    s.memRead a rest = .next (s.raise (.addressOutOfRange a)) := by
  simp only [State.memRead, if_neg h]

theorem State.memWrite_nat (s : State) {a : Nat} (v : Byte) (rest : State → Result) (h : a < 256) :
    s.memWrite a v rest = rest (s.setByte a v) := by
  have hc : (0 : Int) ≤ a ∧ (a : Int) < 256 := by omega
  simp [State.memWrite, hc]

theorem State.memWrite_out (s : State) {a : Int} (v : Byte) (rest : State → Result)
    (h : ¬(0 ≤ a ∧ a < 256)) :
    s.memWrite a v rest = .next (s.raise (.addressOutOfRange a)) := by
  simp only [State.memWrite, if_neg h]

/-- A stack address is a byte and always in range (20_memory.md R34(a)). -/
@[simp] theorem State.memRead_byte (s : State) (a : Byte) (rest : Byte → Result) :
    s.memRead a.toNat rest = rest (s.byte a.toNat) :=
  s.memRead_nat rest a.isLt

@[simp] theorem State.memWrite_byte (s : State) (a v : Byte) (rest : State → Result) :
    s.memWrite a.toNat v rest = rest (s.setByte a.toNat v) :=
  s.memWrite_nat v rest a.isLt

/-! ### The ALU's operands -/

@[simp] theorem State.readPair_fin (s : State) (a b : Fin 8) (rest : Byte → Byte → Result) :
    s.readPair a b rest = rest (s.reg a) (s.reg b) := by
  simp [State.readPair]

theorem State.readPair_next {s t : State} {a b : Nat} {rest : Byte → Byte → Result}
    (h : s.readPair a b rest = .next t) :
    (∃ p q : Fin 8, p.val = a ∧ q.val = b ∧ rest (s.reg p) (s.reg q) = .next t) ∨
    (8 ≤ a ∧ t = s.raise (.invalidRegister a)) ∨
    (a < 8 ∧ 8 ≤ b ∧ t = s.raise (.invalidRegister b)) := by
  rcases State.readReg_next h with ⟨p, hp, hb⟩ | ha
  · rcases State.readReg_next hb with ⟨q, hq, hr⟩ | ⟨hb, ht⟩
    · exact .inl ⟨p, q, hp, hq, hr⟩
    · exact .inr (.inr ⟨hp ▸ p.isLt, hb, ht⟩)
  · exact .inr (.inl ha)

/-! ### Fetch -/

/-- Where all three addresses exist the fetch gives their bytes (40_fetch_decode_execute.md R54). -/
theorem State.fetch_low (s : State) (rest : Byte → Byte → Byte → Result) (h : s.pc ≤ 253) :
    s.fetch rest = rest (s.byte s.pc) (s.byte (s.pc + 1)) (s.byte (s.pc + 2)) := by
  have h1 : (s.pc : Int) + 1 = ((s.pc + 1 : Nat) : Int) := by omega
  have h2 : (s.pc : Int) + 2 = ((s.pc + 2 : Nat) : Int) := by omega
  simp only [State.fetch, h1, h2]
  rw [s.memRead_nat _ (by omega), s.memRead_nat _ (by omega), s.memRead_nat _ (by omega)]

/-- At the top of memory the fetch raises `AddressOutOfRange`: at address 256, or at pc itself beyond it
(40_fetch_decode_execute.md R54). -/
theorem State.fetch_high (s : State) (rest : Byte → Byte → Byte → Result) (h : 254 ≤ s.pc) :
    s.fetch rest = .next (s.raise (.addressOutOfRange (max s.pc 256 : Nat))) := by
  have h1 : (s.pc : Int) + 1 = ((s.pc + 1 : Nat) : Int) := by omega
  have h2 : (s.pc : Int) + 2 = ((s.pc + 2 : Nat) : Int) := by omega
  simp only [State.fetch, h1, h2]
  by_cases h256 : 256 ≤ s.pc
  · rw [s.memRead_out _ (by omega), Nat.max_eq_left h256]
  · rw [s.memRead_nat _ (by omega), Nat.max_eq_right (by omega)]
    by_cases h255 : s.pc = 255
    · rw [s.memRead_out _ (by omega), h255]
    · rw [s.memRead_nat _ (by omega), s.memRead_out _ (by omega), show s.pc + 2 = 256 by omega]

end Sys2Proof.Machine
end

