-- ==== Sys2Proof/Laws/Exec.lean ====
section
/-! SUPPORT. What each handler can do: if it answers the next state `t`, then `t` is one of the states named. Every
handler answers a next state, so these are its whole behaviour, seen from the result. -/

namespace Sys2Proof.Machine

/-- An arithmetic operation on two register cells writes its value to the first. -/
theorem State.alu_value (s : State) {op : AluOp} {a b : Fin 8} {v : Byte} (rest : State → Result)
    (h : aluCompute op (s.reg a) (s.reg b) = .value v) : s.alu op a b rest = rest (s.setReg a v) := by
  simp [State.alu, h]

/-- The compare of two register cells writes FL. -/
theorem State.alu_flags (s : State) {op : AluOp} {a b : Fin 8} {f : Fl} (rest : State → Result)
    (h : aluCompute op (s.reg a) (s.reg b) = .flags f) : s.alu op a b rest = rest (s.setFl f) := by
  simp [State.alu, h]

theorem State.alu_next {s t : State} {op : AluOp} {a b : Nat} {rest : State → Result}
    (h : s.alu op a b rest = .next t) :
    (∃ p q : Fin 8, p.val = a ∧ q.val = b ∧
      ((∃ v, aluCompute op (s.reg p) (s.reg q) = .value v ∧ rest (s.setReg p v) = .next t) ∨
       (∃ f, aluCompute op (s.reg p) (s.reg q) = .flags f ∧ rest (s.setFl f) = .next t))) ∨
    (8 ≤ a ∧ t = s.raise (.invalidRegister a)) ∨
    (a < 8 ∧ 8 ≤ b ∧ t = s.raise (.invalidRegister b)) := by
  rcases State.readPair_next h with ⟨p, q, rfl, rfl, _⟩ | h
  · refine .inl ⟨p, q, rfl, rfl, ?_⟩
    cases hc : aluCompute op (s.reg p) (s.reg q) with
    | value v => exact .inl ⟨v, rfl, State.alu_value s rest hc ▸ h⟩
    | flags f => exact .inr ⟨f, rfl, State.alu_flags s rest hc ▸ h⟩
  · exact .inr h

/-- Wherever a CALL can execute, its return address is a byte without reduction (44_control_transfer.md R74). -/
theorem returnAddress_toNat {pc : Nat} (h : pc ≤ 253) : (returnAddress pc).toNat = pc + 2 := by
  simp [returnAddress]
  omega

theorem next_inj {s t : State} (h : (.next s : Result) = .next t) : t = s :=
  (Host.Outcome.next.inj h).symm

theorem execLdi_next {s t : State} {a : Nat} {v : Byte} (h : execLdi a v s = .next t) :
    (∃ r : Fin 8, r.val = a ∧ t = (s.setReg r v).advance 3) ∨
    (8 ≤ a ∧ t = s.raise (.invalidRegister a)) :=
  (State.writeReg_next h).imp (fun ⟨r, hr, h⟩ => ⟨r, hr, next_inj h⟩) id

theorem execPrn_next {s t : State} {a : Nat} (h : execPrn a s = .next t) :
    (∃ r : Fin 8, r.val = a ∧ t = (s.emit (s.reg r)).advance 2) ∨
    (8 ≤ a ∧ t = s.raise (.invalidRegister a)) :=
  (State.readReg_next h).imp (fun ⟨r, hr, h⟩ => ⟨r, hr, next_inj h⟩) id

theorem execHlt_next {s t : State} (h : execHlt s = .next t) : t = s.halt.advance 1 := next_inj h

theorem execAdd_next {s t : State} {a b : Nat} (h : execAdd a b s = .next t) :
    (∃ p q : Fin 8, p.val = a ∧ q.val = b ∧ t = (s.setReg p (s.reg p + s.reg q)).advance 3) ∨
    (8 ≤ a ∧ t = s.raise (.invalidRegister a)) ∨ (a < 8 ∧ 8 ≤ b ∧ t = s.raise (.invalidRegister b)) := by
  rcases State.alu_next h with ⟨p, q, hp, hq, ⟨v, hv, h⟩ | ⟨f, hf, h⟩⟩ | h
  · cases hv
    exact .inl ⟨p, q, hp, hq, next_inj h⟩
  · cases hf
  · exact .inr h

theorem execSub_next {s t : State} {a b : Nat} (h : execSub a b s = .next t) :
    (∃ p q : Fin 8, p.val = a ∧ q.val = b ∧ t = (s.setReg p (s.reg p - s.reg q)).advance 3) ∨
    (8 ≤ a ∧ t = s.raise (.invalidRegister a)) ∨ (a < 8 ∧ 8 ≤ b ∧ t = s.raise (.invalidRegister b)) := by
  rcases State.alu_next h with ⟨p, q, hp, hq, ⟨v, hv, h⟩ | ⟨f, hf, h⟩⟩ | h
  · cases hv
    exact .inl ⟨p, q, hp, hq, next_inj h⟩
  · cases hf
  · exact .inr h

theorem execMul_next {s t : State} {a b : Nat} (h : execMul a b s = .next t) :
    (∃ p q : Fin 8, p.val = a ∧ q.val = b ∧ t = (s.setReg p (s.reg p * s.reg q)).advance 3) ∨
    (8 ≤ a ∧ t = s.raise (.invalidRegister a)) ∨ (a < 8 ∧ 8 ≤ b ∧ t = s.raise (.invalidRegister b)) := by
  rcases State.alu_next h with ⟨p, q, hp, hq, ⟨v, hv, h⟩ | ⟨f, hf, h⟩⟩ | h
  · cases hv
    exact .inl ⟨p, q, hp, hq, next_inj h⟩
  · cases hf
  · exact .inr h

theorem execCmp_next {s t : State} {a b : Nat} (h : execCmp a b s = .next t) :
    (∃ p q : Fin 8, p.val = a ∧ q.val = b ∧
      t = (s.setFl (compareFlags (s.reg p) (s.reg q))).advance 3) ∨
    (8 ≤ a ∧ t = s.raise (.invalidRegister a)) ∨ (a < 8 ∧ 8 ≤ b ∧ t = s.raise (.invalidRegister b)) := by
  rcases State.alu_next h with ⟨p, q, hp, hq, ⟨v, hv, h⟩ | ⟨f, hf, h⟩⟩ | h
  · cases hv
  · cases hf
    exact .inl ⟨p, q, hp, hq, next_inj h⟩
  · exact .inr h

theorem execPush_next {s t : State} {a : Nat} (h : execPush a s = .next t) :
    (∃ r : Fin 8, r.val = a ∧ t = (s.decSp.setByte (s.sp - 1).toNat (s.decSp.reg r)).advance 2) ∨
    (8 ≤ a ∧ t = s.decSp.raise (.invalidRegister a)) := by
  simp only [execPush, State.memWrite_byte, State.sp_decSp] at h
  rcases State.readReg_next h with ⟨r, hr, h⟩ | h
  · exact .inl ⟨r, hr, next_inj h⟩
  · exact .inr h

theorem execPop_next {s t : State} {a : Nat} (h : execPop a s = .next t) :
    (∃ r : Fin 8, r.val = a ∧ t = (s.setReg r (s.byte s.sp.toNat)).incSp.advance 2) ∨
    (8 ≤ a ∧ t = s.raise (.invalidRegister a)) := by
  rw [execPop, State.memRead_byte] at h
  exact (State.writeReg_next h).imp (fun ⟨r, hr, h⟩ => ⟨r, hr, next_inj h⟩) id

theorem execCall_next {s t : State} {a : Nat} (h : execCall a s = .next t) :
    (∃ r : Fin 8, r.val = a ∧
      t = (s.decSp.setByte (s.sp - 1).toNat (returnAddress s.pc)).jumpTo (s.decSp.reg r)) ∨
    (8 ≤ a ∧
      t = (s.decSp.setByte (s.sp - 1).toNat (returnAddress s.pc)).raise (.invalidRegister a)) := by
  simp only [execCall, State.memWrite_byte, State.sp_decSp] at h
  exact (State.readReg_next h).imp (fun ⟨r, hr, h⟩ => ⟨r, hr, next_inj h⟩) id

theorem execRet_next {s t : State} (h : execRet s = .next t) :
    t = (s.jumpTo (s.byte s.sp.toNat)).incSp := by
  rw [execRet, State.memRead_byte] at h
  exact next_inj h

theorem execJmp_next {s t : State} {a : Nat} (h : execJmp a s = .next t) :
    (∃ r : Fin 8, r.val = a ∧ t = s.jumpTo (s.reg r)) ∨
    (8 ≤ a ∧ t = s.raise (.invalidRegister a)) :=
  (State.readReg_next h).imp (fun ⟨r, hr, h⟩ => ⟨r, hr, next_inj h⟩) id

end Sys2Proof.Machine
end

