-- ==== Sys2Proof/Laws/Flags.lean ====
section
/-! SUPPORT. The compare in terms of the order of the two values as integers 0 to 255 (42_alu.md R68). -/

namespace Sys2Proof.Machine

theorem compareFlags_of_gt {va vb : Byte} (h : vb.toNat < va.toNat) : compareFlags va vb = .greater := by
  rw [compareFlags, if_pos (by omega)]

theorem compareFlags_of_lt {va vb : Byte} (h : va.toNat < vb.toNat) : compareFlags va vb = .less := by
  rw [compareFlags, if_neg (by omega), if_pos (by omega)]

theorem compareFlags_of_eq {va vb : Byte} (h : va.toNat = vb.toNat) : compareFlags va vb = .equal := by
  rw [compareFlags, if_neg (by omega), if_neg (by omega)]

/-- A compare never leaves FL empty (10_state.md R18). -/
theorem compareFlags_ne_none (va vb : Byte) : compareFlags va vb ≠ .none := by
  rcases Nat.lt_trichotomy va.toNat vb.toNat with h | h | h
  · simp [compareFlags_of_lt h]
  · simp [compareFlags_of_eq h]
  · simp [compareFlags_of_gt h]

end Sys2Proof.Machine
end

