-- ==== Sys2Proof/Laws/PerInstr.lean ====
section
/-! SUPPORT. The family `EncodedForm`: every instruction's encoding is as long as its opcode says
(30_encoding.md R43) and begins with its opcode byte (R42), under any opcode map. -/

namespace Sys2Proof.Laws.EncodedForm

def Statement (i : Instr) : Prop :=
  ∀ m : OpcodeMap, (encodeWith m i).length = i.length ∧ (encodeWith m i).head? = some (m i.op)

theorem ldi (regA : Nat) (imm8 : Byte) : Statement (.ldi regA imm8) := fun _ => ⟨rfl, rfl⟩
theorem prn (regA : Nat) : Statement (.prn regA) := fun _ => ⟨rfl, rfl⟩
theorem hlt : Statement .hlt := fun _ => ⟨rfl, rfl⟩
theorem add (regA regB : Nat) : Statement (.add regA regB) := fun _ => ⟨rfl, rfl⟩
theorem sub (regA regB : Nat) : Statement (.sub regA regB) := fun _ => ⟨rfl, rfl⟩
theorem mul (regA regB : Nat) : Statement (.mul regA regB) := fun _ => ⟨rfl, rfl⟩
theorem cmp (regA regB : Nat) : Statement (.cmp regA regB) := fun _ => ⟨rfl, rfl⟩
theorem push (regA : Nat) : Statement (.push regA) := fun _ => ⟨rfl, rfl⟩
theorem pop (regA : Nat) : Statement (.pop regA) := fun _ => ⟨rfl, rfl⟩
theorem call (regA : Nat) : Statement (.call regA) := fun _ => ⟨rfl, rfl⟩
theorem ret : Statement .ret := fun _ => ⟨rfl, rfl⟩
theorem jmp (regA : Nat) : Statement (.jmp regA) := fun _ => ⟨rfl, rfl⟩

end Sys2Proof.Laws.EncodedForm
end

