-- ==== Sys2Proof/Laws/Step.lean ====
section
/-! SUPPORT. The decoder's lookup, and what one step can do. -/

namespace Sys2Proof

theorem Op.mem_all (op : Op) : op ∈ Op.all := by cases op <;> decide

/-- A mnemonic the lookup finds has the byte looked up as its opcode. -/
theorem lookup_some {m : OpcodeMap} {ir : Byte} {op : Op} (h : lookup m ir = some op) : m op = ir := by
  simpa using List.find?_some h

/-- The lookup misses exactly the bytes that are no mnemonic's opcode. -/
theorem lookup_eq_none {m : OpcodeMap} {ir : Byte} : lookup m ir = none ↔ ∀ op, m op ≠ ir := by
  simp only [lookup, List.find?_eq_none, beq_iff_eq]
  exact ⟨fun h op => h op (Op.mem_all op), fun h op _ => h op⟩

/-- Under an injective map the lookup of a mnemonic's opcode finds that mnemonic. -/
theorem lookup_opcode {m : OpcodeMap} (hm : m.Injective) (op : Op) : lookup m (m op) = some op := by
  cases h : lookup m (m op) with
  | none => exact absurd rfl (lookup_eq_none.mp h op)
  | some op' => exact congrArg some (hm _ _ (lookup_some h))

theorem opcodes_injective : opcodes.Injective := by
  intro x y
  cases x <;> cases y <;> decide

theorem opcodes_agreesWithSource : opcodes.AgreesWithSource := by
  refine ⟨?_, ?_, ?_⟩ <;> decide

@[simp] theorem Op.op_instr (op : Op) (a b : Byte) : (op.instr a b).op = op := by cases op <;> rfl

namespace Machine

/-- Everything a step with a next state can be: a Running core, and a fetch fault, an unknown opcode, or a decoded
instruction's execution. -/
theorem stepWith_next {m : OpcodeMap} {s t : State} (h : stepWith m s = .next t) :
    s.runState = .running ∧
    ((254 ≤ s.pc ∧ t = s.raise (.addressOutOfRange (max s.pc 256 : Nat))) ∨
     (s.pc ≤ 253 ∧ lookup m (s.byte s.pc) = none ∧ t = s.raise (.unknownOpcode (s.byte s.pc))) ∨
     (s.pc ≤ 253 ∧ ∃ op, lookup m (s.byte s.pc) = some op ∧
        exec (op.instr (s.byte (s.pc + 1)) (s.byte (s.pc + 2))) s = .next t)) := by
  cases hr : s.runState with
  | halted => simp [stepWith, hr] at h
  | faulted => simp [stepWith, hr] at h
  | running =>
    refine ⟨rfl, ?_⟩
    simp only [stepWith, hr] at h
    rcases Nat.lt_or_ge s.pc 254 with hp | hp
    · rw [s.fetch_low _ (by omega)] at h
      refine .inr ?_
      cases hl : lookup m (s.byte s.pc) with
      | none =>
        simp only [decodeWith, hl, execDecoded] at h
        exact .inl ⟨by omega, rfl, next_inj h⟩
      | some op =>
        simp only [decodeWith, hl, execDecoded] at h
        exact .inr ⟨by omega, op, rfl, h⟩
    · rw [s.fetch_high _ hp] at h
      exact .inl ⟨hp, next_inj h⟩

/-- A Running core whose fetch succeeds executes what it decodes. -/
theorem stepWith_low {m : OpcodeMap} {s : State} (hr : s.runState = .running) (hp : s.pc ≤ 253) :
    stepWith m s =
      execDecoded (decodeWith m (s.byte s.pc) (s.byte (s.pc + 1)) (s.byte (s.pc + 2))) s := by
  simp only [stepWith, hr]
  exact s.fetch_low _ hp

/-- A Running core at the top of memory raises the fetch fault. -/
theorem stepWith_high {m : OpcodeMap} {s : State} (hr : s.runState = .running) (hp : 254 ≤ s.pc) :
    stepWith m s = .next (s.raise (.addressOutOfRange (max s.pc 256 : Nat))) := by
  simp only [stepWith, hr]
  exact s.fetch_high _ hp

/-- A run of `k + 1` steps is a step and then a run of `k`. -/
theorem core_run_succ_next {k : Nat} {s t : State} :
    Host.Core.run core (k + 1) s = .next t ↔ ∃ u, step s = .next u ∧ Host.Core.run core k u = .next t := by
  rw [show Host.Core.run core (k + 1) s = _ from Host.Core.run.eq_2 core s k]
  cases h : step s with
  | next u => simp [show core.step s = .next u from h]
  | fault r => simp [show core.step s = .fault r from h]
  | refused r => simp [show core.step s = .refused r from h]

end Machine

end Sys2Proof
end

