-- ==== Sys2Proof/Tests/Slice0.lean ====
section
/-! SUPPORT. The model's own tests. Every expected value is from the spec: the encodings of 30_encoding.md R46, the
vectors V-* of 95_test_vectors.md, and the instruction rules; then, for each statement with hypotheses, a named
witness that meets them. -/

namespace Sys2Proof.Tests

open Sys2Proof.Machine

/-- The reset state with bytes stored from an address and pc there. -/
def at_ (addr : Nat) (bytes : List Byte) : State := { State.reset with pc := addr }.storeBytes addr bytes

/-- The reset state with bytes at 0, as the spec's vectors start. -/
def image (bytes : List Byte) : State := at_ 0 bytes

/-- The outcome is a next state of which `p` holds. -/
def nextIs (o : Result) (p : State → Bool) : Bool :=
  match o with
  | .next t => p t
  | .fault _ => false
  | .refused _ => false

theorem next_of {o : Result} {P : State → Prop} [DecidablePred P] (h : nextIs o (fun t => decide (P t)) = true) :
    ∃ t, o = .next t ∧ P t := by
  cases o with
  | next t => exact ⟨t, rfl, of_decide_eq_true h⟩
  | fault r => cases h
  | refused r => cases h

theorem next_any {o : Result} (h : nextIs o (fun _ => true) = true) : ∃ t, o = .next t := by
  cases o with
  | next t => exact ⟨t, rfl⟩
  | fault r => cases h
  | refused r => cases h

/-! ### WellFormed -/

theorem test_wf_index_255 : (Instr.add 255 255).wf = true := by decide
theorem test_wf_refuses_first_operand : (Instr.ldi 256 0).wf = false := by decide
theorem test_wf_refuses_second_operand : (Instr.cmp 0 256).wf = false := by decide

/-! ### Decoding: words written out bit by bit from R44 and R46 -/

theorem test_decode_ldi : decode 0b10000010 0b00000011 0b11111111 = .instr (.ldi 3 255) := by decide
theorem test_decode_prn : decode 0b01000111 0b00000111 0b00000001 = .instr (.prn 7) := by decide
theorem test_decode_hlt : decode 0b00000001 0b11111111 0b11111111 = .instr .hlt := by decide
theorem test_decode_add : decode 0b10100000 0b00000001 0b00000010 = .instr (.add 1 2) := by decide
theorem test_decode_sub : decode 0b10100001 0b00000010 0b00000011 = .instr (.sub 2 3) := by decide
theorem test_decode_mul : decode 0b10100010 0b00000100 0b00000101 = .instr (.mul 4 5) := by decide
theorem test_decode_cmp : decode 0b10100111 0b00000110 0b10000000 = .instr (.cmp 6 128) := by decide
theorem test_decode_push : decode 0b01000101 0b00000101 0b00001000 = .instr (.push 5) := by decide
theorem test_decode_pop : decode 0b01000110 0b00000110 0b00001000 = .instr (.pop 6) := by decide
theorem test_decode_call : decode 0b01010000 0b00000001 0b00000000 = .instr (.call 1) := by decide
theorem test_decode_ret : decode 0b00010001 0b00000000 0b00000000 = .instr .ret := by decide
theorem test_decode_jmp : decode 0b01010100 0b00000010 0b00000000 = .instr (.jmp 2) := by decide

/-- V-DEC-3: a neighbour of LDI's opcode is no instruction. -/
theorem test_decode_neighbour_unknown : decode 0x83 0 0 = .unknown 0x83 := by decide

/-- The source's own bytes for LDI R0,8 (S1), as the encoder gives them. -/
theorem test_encode_ldi : encode (.ldi 0 8) = [0b10000010, 0b00000000, 0b00001000] := by decide
theorem test_encode_call : encode (.call 1) = [0x50, 0x01] := by decide

/-- The table numbers a word's first byte lowest. -/
theorem test_table_word : decodeTableWord 24 0x080082 = some (.ldi 0 8) := by decide
theorem test_table_word_short : decodeTableWord 8 0x0101 = some .hlt := by decide

/-! ### Fetch and decode (section 2.6) -/

/-- V-FETCH-1: HLT at 0xFD executes. -/
theorem test_fetch_1 : nextIs (step (at_ 0xFD [0x01])) (fun t => t.runState = .halted ∧ t.pc = 0xFE) = true := by
  decide

/-- V-FETCH-5: the fetch fault comes before the decode. -/
theorem test_fetch_5 : nextIs (step (at_ 0xFE [0xFF]))
    (fun t => t.fault = some (.addressOutOfRange 256) ∧ t.pc = 0xFE) = true := by decide

/-- V-DEC-1: 0x00 is no no-operation. -/
theorem test_dec_1 : nextIs (step State.reset)
    (fun t => t.runState = .faulted ∧ t.fault = some (.unknownOpcode 0) ∧ t.pc = 0) = true := by decide

/-- R53: a Halted core has no step. -/
theorem test_halted_stops : step { State.reset with runState := .halted } = .fault .coreHalted := by rfl

/-! ### Instructions -/

/-- V-LDI-2, V-LDI-3. -/
theorem test_ldi_2 : nextIs (step (image [0x82, 3, 0xFF])) (fun t => t.reg 3 = 0xFF ∧ t.pc = 3) = true := by decide
theorem test_ldi_3 : nextIs (step (image [0x82, 7, 0x80])) (fun t => t.sp = 0x80) = true := by decide

/-- V-PRN-2, V-PRN-4. -/
theorem test_prn_2 : nextIs (step (image [0x47, 7])) (fun t => t.out = [244] ∧ t.pc = 2) = true := by decide
theorem test_prn_4 : nextIs (step (image [0x47, 0x10]))
    (fun t => t.fault = some (.invalidRegister 16) ∧ t.out = [] ∧ t.pc = 0) = true := by decide

/-- V-HLT-1. -/
theorem test_hlt_1 : nextIs (step (image [0x01, 0xFF, 0xFF])) (fun t => t.runState = .halted ∧ t.pc = 1) = true := by
  decide

/-- V-ADD-4 (same register twice), V-ADD-9 (the first bad index is reported). -/
theorem test_add_4 : nextIs (step ((image [0xA0, 0, 0]).setReg 0 0xC8)) (fun t => t.reg 0 = 0x90 ∧ t.pc = 3) = true := by
  decide
theorem test_add_9 : nextIs (step (image [0xA0, 9, 10])) (fun t => t.fault = some (.invalidRegister 9)) = true := by
  decide

/-- V-SUB-3. -/
theorem test_sub_3 : nextIs (step (((image [0xA1, 2, 3]).setReg 2 3).setReg 3 5))
    (fun t => t.reg 2 = 0xFE ∧ t.reg 3 = 5 ∧ t.fl = .none) = true := by decide

/-- V-MUL-3. -/
theorem test_mul_3 : nextIs (step (((image [0xA2, 0, 1]).setReg 0 0xFF).setReg 1 0xFF))
    (fun t => t.reg 0 = 1 ∧ t.reg 1 = 0xFF) = true := by decide

/-- V-CMP-4 (unsigned order), V-CMP-5 (the difference is not reduced). -/
theorem test_cmp_4 : nextIs (step (((image [0xA7, 0, 1]).setReg 0 0x80).setReg 1 0x01))
    (fun t => t.fl = .greater ∧ t.fl.bits = 0b010) = true := by decide
theorem test_cmp_5 : nextIs (step ((image [0xA7, 0, 1]).setReg 1 0xFF))
    (fun t => t.fl = .less ∧ t.fl.bits = 0b100) = true := by decide

/-- V-PUSH-2 (wrap), V-PUSH-4 (fault after the decrement). -/
theorem test_push_2 : nextIs (step (((image [0x45, 0]).setReg 0 0xAA).setReg 7 0))
    (fun t => t.sp = 0xFF ∧ t.byte 0xFF = 0xAA ∧ t.pc = 2) = true := by decide
theorem test_push_4 : nextIs (step (image [0x45, 8]))
    (fun t => t.fault = some (.invalidRegister 8) ∧ t.sp = 0xF3 ∧ t.byte 0xF3 = 0 ∧ t.pc = 0) = true := by decide

/-- V-POP-2 (wrap), V-POP-3 (POP R7). -/
theorem test_pop_2 : nextIs (step (((image [0x46, 0]).setReg 7 0xFF).setByte 0xFF 0x5A))
    (fun t => t.reg 0 = 0x5A ∧ t.sp = 0 ∧ t.byte 0xFF = 0x5A) = true := by decide
theorem test_pop_3 : nextIs (step (((image [0x46, 7]).setReg 7 0xF3).setByte 0xF3 0x20))
    (fun t => t.sp = 0x21) = true := by decide

/-- V-CALL-2 (the return address), V-CALL-5 (fault after the push). -/
theorem test_call_2 : nextIs (step ((at_ 6 [0x50, 1]).setReg 1 0x0B))
    (fun t => t.sp = 0xF3 ∧ t.byte 0xF3 = 8 ∧ t.pc = 0x0B) = true := by decide
theorem test_call_5 : nextIs (step (image [0x50, 8]))
    (fun t => t.fault = some (.invalidRegister 8) ∧ t.sp = 0xF3 ∧ t.byte 0xF3 = 2 ∧ t.pc = 0) = true := by decide

/-- V-RET-1. -/
theorem test_ret_1 : nextIs (step (((image [0x11]).setReg 7 0xF3).setByte 0xF3 8))
    (fun t => t.pc = 8 ∧ t.sp = 0xF4) = true := by decide

/-- V-JMP-2, V-JMP-3. -/
theorem test_jmp_2 : nextIs (step (image [0x54, 7])) (fun t => t.pc = 0xF4 ∧ t.sp = 0xF4) = true := by decide
theorem test_jmp_3 : nextIs (step (image [0x54, 8])) (fun t => t.fault = some (.invalidRegister 8) ∧ t.pc = 0) = true := by
  decide

/-! ### Output text and loading -/

/-- R61: 255 prints as 255 and 0 as 0. -/
theorem test_out_text : ({ State.reset with out := [255, 0] }).outText = ['2', '5', '5', '\n', '0', '\n'] := by decide

/-- R51: the first line of the spec's example image, with its comment. -/
theorem test_line_byte : lineBytes ['1', '0', '0', '0', '0', '0', '1', '0', ' ', '#', ' ', 'L'] = .ok [0x82] := by rfl
theorem test_line_comment : lineBytes ['#', ' ', 'p'] = .ok [] := by rfl
theorem test_line_malformed : lineBytes ['1', '0', '2'] = .error .malformedLine := by rfl

/-! ### Witnesses: states and operands that meet the hypotheses of each statement -/

theorem test_witness_ResetTable : ((0 : Fin 8) ≠ 7) ∧ ((6 : Fin 8) ≠ 7) := by decide

theorem test_witness_LoaderPlacesImage :
    ([] : List Byte).length ≤ 256 ∧ (List.replicate 256 (1 : Byte)).length ≤ 256 ∧
    256 < (List.replicate 257 (1 : Byte)).length := by
  rw [List.length_replicate, List.length_replicate]
  decide

theorem test_witness_RegisterAccessContract : (8 : Nat) ≤ 8 ∧ (8 : Nat) ≤ 255 := by decide

theorem test_witness_MemoryAccessContract :
    ((0 : Int) ≤ 0 ∧ (0 : Int) < 256) ∧ ((0 : Int) ≤ 255 ∧ (255 : Int) < 256) ∧
    ((-1 : Int) < 0 ∨ (256 : Int) ≤ -1) ∧ ((256 : Int) < 0 ∨ (256 : Int) ≤ 256) := by decide

theorem test_witness_WriteChangesOneCell : (0 : Int) ≤ 255 ∧ (255 : Int) < 256 ∧ (0 : Nat) ≠ (255 : Int).toNat := by
  decide

theorem test_witness_EqualReadsEqualMemory :
    Memory.wf [(0, 1), (255, 2)] = true ∧ Memory.wf (Memory.write [(255, 2)] 0 1) = true ∧
    ∀ a : Nat, Memory.read [(0, 1), (255, 2)] a = Memory.read (Memory.write [(255, 2)] 0 1) a :=
  ⟨by decide, by decide, fun _ => rfl⟩

theorem test_witness_UnknownOpcodeBytes : (0xFF : Byte) ∉ Op.all.map opcodes := by decide

theorem test_witness_DecodeOfEncode :
    opcodes.Injective ∧ (Instr.add 255 8).wf = true ∧ Instr.ret.wf = true :=
  ⟨opcodes_injective, by decide, by decide⟩

theorem test_witness_EncodeOfDecode : decodeWith opcodes 0xA0 255 8 = .instr (.add 255 8) := by decide

theorem test_witness_UnusedBytesIgnored :
    (decodeWith opcodes 0x47 1 9 = .instr (.prn 1) ∧ (Instr.prn 1).length ≤ 2) ∧
    (decodeWith opcodes 0x11 9 9 = .instr .ret ∧ Instr.ret.length = 1) := by decide

theorem test_witness_StepRunsDecoded :
    (at_ 253 [0x82, 0, 7]).runState = .running ∧ (at_ 253 [0x82, 0, 7]).pc ≤ 253 ∧
    (at_ 253 [0x82, 0, 7]).decoded opcodes = .instr (.ldi 0 7) := by decide

theorem test_witness_UnknownOpcodeFaults :
    ((at_ 253 [0x00]).runState = .running ∧ (at_ 253 [0x00]).pc ≤ 253 ∧
      ∀ op, opcodes op ≠ (at_ 253 [0x00]).byte (at_ 253 [0x00]).pc) ∧
    (opcodes.Injective ∧ opcodes .hlt = (at_ 253 [0x01]).byte (at_ 253 [0x01]).pc) :=
  ⟨⟨by decide, by decide, fun op => by cases op <;> decide⟩, opcodes_injective, by decide⟩

theorem test_witness_FetchAtTopFaults :
    ((at_ 254 [0x01]).runState = .running ∧ 254 ≤ (at_ 254 [0x01]).pc ∧ (at_ 254 [0x01]).pc ≤ 256) ∧
    ((at_ 255 [0x01]).runState = .running ∧ 254 ≤ (at_ 255 [0x01]).pc ∧ (at_ 255 [0x01]).pc ≤ 256) ∧
    ((at_ 256 []).runState = .running ∧ 254 ≤ (at_ 256 []).pc ∧ (at_ 256 []).pc ≤ 256) := by decide

/-- A Halted state, reached from itself. -/
theorem test_witness_StepExactlyWhileRunning :
    ∃ s : State, s.runState ≠ .running ∧ Steps s s :=
  ⟨{ State.reset with runState := .halted }, by decide, .refl _⟩

/-- A step to Halted, and one to Faulted for each way the statement names: the top of memory, an unknown opcode, a bad
operand, PUSH and CALL with a bad operand. -/
theorem test_witness_RunStateTransitions :
    (∃ t, stepWith opcodes (at_ 253 [0x01]) = .next t ∧ t.runState = .halted) ∧
    (∃ t, stepWith opcodes (at_ 254 [0x01]) = .next t ∧ t.runState = .faulted) ∧
    (∃ t, stepWith opcodes (at_ 253 [0x00]) = .next t ∧ t.runState = .faulted) ∧
    (∃ t, stepWith opcodes (at_ 253 [0x46, 8]) = .next t ∧ t.runState = .faulted) ∧
    (∃ t, stepWith opcodes (at_ 253 [0x45, 8]) = .next t ∧ t.runState = .faulted) ∧
    (∃ t, stepWith opcodes (at_ 253 [0x50, 8]) = .next t ∧ t.runState = .faulted) :=
  ⟨next_of (by decide), next_of (by decide), next_of (by decide), next_of (by decide), next_of (by decide),
    next_of (by decide)⟩

theorem test_witness_RaiseIsTerminal : Steps (State.reset.raise (.unknownOpcode 0)) (State.reset.raise (.unknownOpcode 0)) :=
  .refl _

/-- A plain fault, a PUSH and a CALL with a bad index. -/
theorem test_witness_FaultedStepIsPrecise :
    (∃ t, stepWith opcodes (image [0x54, 8]) = .next t ∧ t.runState = .faulted) ∧
    (∃ t, stepWith opcodes (image [0x45, 8]) = .next t ∧ t.runState = .faulted) ∧
    (∃ t, stepWith opcodes (at_ 253 [0x50, 8]) = .next t ∧ t.runState = .faulted) :=
  ⟨next_of (by decide), next_of (by decide), next_of (by decide)⟩

/-- A step into each of the three reachable faults. -/
theorem test_witness_RecordedFaultTellsItsCause :
    (∃ t, stepWith opcodes (at_ 254 [0x01]) = .next t ∧ t.runState = .faulted ∧
      t.fault = some (.addressOutOfRange 256)) ∧
    (∃ t, stepWith opcodes (at_ 253 [0xA0, 7, 8]) = .next t ∧ t.runState = .faulted ∧
      t.fault = some (.invalidRegister 8)) ∧
    (∃ t, stepWith opcodes (at_ 253 [0xFF]) = .next t ∧ t.runState = .faulted ∧
      t.fault = some (.unknownOpcode 0xFF)) :=
  ⟨next_of (by decide), next_of (by decide), next_of (by decide)⟩

theorem test_witness_BadRegisterFaults :
    ((Instr.add 7 8).regOperands.find? fun r => decide (8 ≤ r)) = some 8 ∧
    ((Instr.cmp 9 8).regOperands.find? fun r => decide (8 ≤ r)) = some 9 := by decide

theorem test_witness_GoodRegistersComplete :
    (∀ r ∈ (Instr.add 7 0).regOperands, r < 8) ∧ (∀ r ∈ Instr.hlt.regOperands, r < 8) := by decide

theorem test_witness_LdiRule : (8 : Nat) ≤ 8 ∧ ∃ t, exec (.ldi (7 : Fin 8) 0xFF) State.reset = .next t :=
  ⟨by decide, next_any (by decide)⟩

theorem test_witness_PrnRule : (8 : Nat) ≤ 8 := by decide

theorem test_witness_DecimalTextReadsBack : (decimal 0).head? = some '0' := by decide

theorem test_witness_HltRule : ∃ t, exec .hlt State.reset = .next t ∧ Steps t t :=
  (next_any (by decide)).imp fun t h => ⟨h, .refl t⟩

/-- Each of the three operations the statement ranges over. -/
theorem test_witness_ArithmeticIsExactModulo256 :
    ((fun a b : Fin 8 => Instr.add a b) = (fun a b => .add a b) ∧ ((· + ·) : Int → Int → Int) = (· + ·)) ∧
    ((fun a b : Fin 8 => Instr.sub a b) = (fun a b => .sub a b) ∧ ((· - ·) : Int → Int → Int) = (· - ·)) ∧
    ((fun a b : Fin 8 => Instr.mul a b) = (fun a b => .mul a b) ∧ ((· * ·) : Int → Int → Int) = (· * ·)) ∧
    (1 : Fin 8) ≠ 0 :=
  ⟨⟨rfl, rfl⟩, ⟨rfl, rfl⟩, ⟨rfl, rfl⟩, by decide⟩

/-- The three orders: SP is 0xF4 and R0 is 0 at reset. -/
theorem test_witness_CmpResult :
    (State.reset.reg 7).toNat > (State.reset.reg 0).toNat ∧ (State.reset.reg 0).toNat < (State.reset.reg 7).toNat ∧
    (State.reset.reg 0).toNat = (State.reset.reg 1).toNat := by decide

theorem test_witness_CompareSwapComplements :
    (∃ t, exec (.cmp (7 : Fin 8) (0 : Fin 8)) State.reset = .next t ∧ t.fl = .greater) ∧
    (∃ u, exec (.cmp (0 : Fin 8) (7 : Fin 8)) State.reset = .next u ∧ u.fl = .less) :=
  ⟨next_of (by decide), next_of (by decide)⟩

theorem test_witness_AluBadIndexFaults : (8 : Nat) ≤ 8 ∧ ((7 : Nat) < 8 ∧ (8 : Nat) ≤ 8) := by decide

theorem test_witness_PopResult : (0 : Fin 8) ≠ 7 := by decide

theorem test_witness_StackBadIndexFaults : (8 : Nat) ≤ 8 ∧ (at_ 253 [0x50, 8]).pc ≤ 253 := by decide

theorem test_witness_StackPointerWraps : (6 : Fin 8) ≠ 7 := by decide

theorem test_witness_PushPopRoundTrip : (6 : Fin 8) ≠ 7 ∧ (7 : Fin 8) = 7 := by decide

theorem test_witness_CallResult : (at_ 253 [0x50, 0]).pc ≤ 253 := by decide

theorem test_witness_JmpResult : (8 : Nat) ≤ 8 := by decide

/-- The state the CALL leaves meets the two premises itself. -/
theorem test_witness_CallRetRoundTrip :
    (at_ 253 [0x50, 0]).pc ≤ 253 ∧ ∃ t u : State, exec (.call (0 : Fin 8)) (at_ 253 [0x50, 0]) = .next t ∧
      u.sp = t.sp ∧ u.byte t.sp.toNat = t.byte t.sp.toNat := ⟨by decide, (next_any (by decide)).imp fun t h => ⟨t, h, rfl, rfl⟩⟩

/-- A JMP R0 at 253 with R0 = 253. -/
theorem test_witness_SelfJumpRunsForever :
    ((at_ 253 [0x54, 0]).setReg 0 253).runState = .running ∧ ((at_ 253 [0x54, 0]).setReg 0 253).pc ≤ 253 ∧
    ((at_ 253 [0x54, 0]).setReg 0 253).decoded opcodes = .instr (.jmp (0 : Fin 8)) ∧
    (((at_ 253 [0x54, 0]).setReg 0 253).reg 0).toNat = ((at_ 253 [0x54, 0]).setReg 0 253).pc := by decide

theorem test_witness_FrameOfRegisterWriters :
    (∃ t, exec (.ldi 0 5) State.reset = .next t ∧ t.runState = State.reset.runState) ∧
    (∃ t, exec (.add 0 8) State.reset = .next t ∧ t.runState = .faulted) ∧ (1 : Fin 8).val ≠ 0 :=
  ⟨next_of (by decide), next_of (by decide), by decide⟩

theorem test_witness_FrameOfRegisterReaders :
    (∃ t, exec (.prn 0) State.reset = .next t) ∧ (∃ t, exec (.cmp 0 8) State.reset = .next t ∧ t.runState = .faulted) ∧
    (∃ t, exec (.jmp 0) State.reset = .next t) ∧ (∃ t, exec .hlt State.reset = .next t) ∧
    Instr.hlt ≠ .cmp 0 0 ∧ Instr.hlt ≠ .prn 0 ∧ Instr.jmp 0 ≠ .hlt :=
  ⟨next_any (by decide), next_of (by decide), next_any (by decide), next_any (by decide), by decide, by decide, by decide⟩

theorem test_witness_FrameOfPushes :
    (∃ t, exec (.push 0) State.reset = .next t) ∧ (∃ t, exec (.call 8) State.reset = .next t ∧ t.runState = .faulted) ∧
    (0 : Fin 8) ≠ 7 ∧ 0xF4 ≠ State.reset.decSp.sp.toNat ∧ 0xF2 ≠ State.reset.decSp.sp.toNat :=
  ⟨next_any (by decide), next_of (by decide), by decide, by decide, by decide⟩

theorem test_witness_FrameOfPops :
    (∃ t, exec (.pop 0) State.reset = .next t) ∧ (∃ t, exec (.pop 8) State.reset = .next t ∧ t.runState = .faulted) ∧
    (∃ t, exec .ret State.reset = .next t) ∧ (1 : Fin 8) ≠ 7 ∧ (Instr.pop 0 = .pop 0 → (1 : Fin 8).val ≠ 0) :=
  ⟨next_any (by decide), next_of (by decide), next_any (by decide), by decide, by decide⟩

theorem test_witness_StepKeepsInv :
    (image [0x45, 7]).Inv ∧ ∃ t, stepWith opcodes (image [0x45, 7]) = .next t :=
  ⟨⟨by decide, by decide, by decide⟩, next_any (by decide)⟩

theorem test_witness_AdvanceByLength :
    (∃ t, exec (.push 7) State.reset = .next t) ∧ (Instr.push 7).isTransfer = false ∧
    (∀ r ∈ (Instr.push 7).regOperands, r < 8) := ⟨next_any (by decide), by decide, by decide⟩

theorem test_witness_OnlyCmpWritesFl :
    ∃ t, stepWith opcodes (image [0xA7, 0, 7]) = .next t ∧ t.fl ≠ (image [0xA7, 0, 7]).fl := next_of (by decide)

theorem test_witness_FlIsNeverRead : ∃ t, Host.Core.run core 1 (image [0xA7, 0, 7]) = .next t := next_any (by decide)

theorem test_witness_OnlyPrnEmits :
    (∃ t, stepWith opcodes (image [0x01]) = .next t) ∧
    (∃ t, stepWith opcodes (image [0x47, 7]) = .next t ∧ t.out ≠ (image [0x47, 7]).out) :=
  ⟨next_any (by decide), next_of (by decide)⟩

/-- A destination that changes, and SP changed by a CALL. -/
theorem test_witness_RegistersChangeOnlyByUse :
    (∃ t, stepWith opcodes (image [0x82, 5, 1]) = .next t ∧ t.reg 5 ≠ (image [0x82, 5, 1]).reg 5) ∧
    (∃ t, stepWith opcodes (image [0x50, 0]) = .next t ∧ t.reg 7 ≠ (image [0x50, 0]).reg 7) :=
  ⟨next_of (by decide), next_of (by decide)⟩

theorem test_witness_OnlyPushesWriteMemory :
    (∃ t, stepWith opcodes (image [0x45, 7]) = .next t ∧ t.byte 0xF3 ≠ (image [0x45, 7]).byte 0xF3) ∧
    (∃ t, stepWith opcodes (image [0x50, 0]) = .next t ∧ t.byte 0xF3 ≠ (image [0x50, 0]).byte 0xF3) :=
  ⟨next_of (by decide), next_of (by decide)⟩

/-- A PUSH R0 at 251 with SP = 254: the byte goes to 253. -/
theorem test_witness_PushedByteIsFetchedNext :
    ((at_ 251 [0x45, 0]).setReg 7 254).runState = .running ∧ ((at_ 251 [0x45, 0]).setReg 7 254).pc ≤ 251 ∧
    ((at_ 251 [0x45, 0]).setReg 7 254).decoded opcodes = .instr (.push (0 : Fin 8)) ∧
    (((at_ 251 [0x45, 0]).setReg 7 254).sp - 1).toNat = ((at_ 251 [0x45, 0]).setReg 7 254).pc + 2 := by decide

theorem test_witness_StoredEncodingRuns :
    opcodes.Injective ∧ (Instr.ldi 255 255).wf = true ∧ (at_ 253 []).runState = .running ∧ (at_ 253 []).pc ≤ 253 :=
  ⟨opcodes_injective, by decide, by decide, by decide⟩

theorem test_witness_HaltedPcFollowsHlt :
    (at_ 253 [0x01]).runState = .running ∧ ∃ t, Steps (at_ 253 [0x01]) t ∧ t.runState = .halted :=
  ⟨by decide, (next_of (P := fun t => t.runState = .halted) (by decide)).imp fun _ h => ⟨.tail (.refl _) h.1, h.2⟩⟩

end Sys2Proof.Tests
end

section
/-! SUPPORT. What an execution and a step can be, said once: an instruction completes with a given result, or raises
`InvalidRegister` at its first bad operand; and what completing and raising leave unchanged. -/

namespace Sys2Proof.Machine

/-! ### The two ends of an execution -/

/-- The first register operand that no register cell has, if there is one (60_exceptions.md R79, D8). -/
def firstBadOperand (i : Instr) : Option Nat := i.regOperands.find? fun r => decide (8 ≤ r)

/-- The state in which an instruction with a bad operand raises: PUSH has lowered SP, CALL has pushed its return
address, every other instruction has done nothing yet (60_exceptions.md R82, D7). -/
def stateAtRaise (i : Instr) (s : State) : State :=
  match i with
  | .push _ => s.decSp
  | .call _ => s.decSp.setByte (s.sp - 1).toNat (returnAddress s.pc)
  | _ => s

/-- Instruction `i`, its register operands all good, takes `s` to `t`. -/
inductive Completes (s : State) : Instr → State → Prop where
  | ldi (r : Fin 8) (v : Byte) : Completes s (.ldi r v) ((s.setReg r v).advance 3)
  | prn (r : Fin 8) : Completes s (.prn r) ((s.emit (s.reg r)).advance 2)
  | hlt : Completes s .hlt (s.halt.advance 1)
  | add (p q : Fin 8) : Completes s (.add p q) ((s.setReg p (s.reg p + s.reg q)).advance 3)
  | sub (p q : Fin 8) : Completes s (.sub p q) ((s.setReg p (s.reg p - s.reg q)).advance 3)
  | mul (p q : Fin 8) : Completes s (.mul p q) ((s.setReg p (s.reg p * s.reg q)).advance 3)
  | cmp (p q : Fin 8) : Completes s (.cmp p q) ((s.setFl (compareFlags (s.reg p) (s.reg q))).advance 3)
  | push (r : Fin 8) : Completes s (.push r) ((s.decSp.setByte (s.sp - 1).toNat (s.decSp.reg r)).advance 2)
  | pop (r : Fin 8) : Completes s (.pop r) ((s.setReg r (s.byte s.sp.toNat)).incSp.advance 2)
  | call (r : Fin 8) :
      Completes s (.call r) ((s.decSp.setByte (s.sp - 1).toNat (returnAddress s.pc)).jumpTo (s.decSp.reg r))
  | ret : Completes s .ret (s.jumpTo (s.byte s.sp.toNat)).incSp
  | jmp (r : Fin 8) : Completes s (.jmp r) (s.jumpTo (s.reg r))

theorem firstBadOperand_some {i : Instr} {k : Nat} (h : firstBadOperand i = some k) :
    k ∈ i.regOperands ∧ 8 ≤ k :=
  ⟨List.mem_of_find?_eq_some h, by simpa using List.find?_some h⟩

theorem firstBadOperand_eq_none {i : Instr} : firstBadOperand i = none ↔ ∀ r ∈ i.regOperands, r < 8 := by
  simp [firstBadOperand, List.find?_eq_none]

theorem Completes.firstBadOperand {s t : State} {i : Instr} (h : Completes s i t) : firstBadOperand i = none := by
  cases h <;> simp [firstBadOperand_eq_none, Instr.regOperands]

/-! ### Execution -/

theorem exec_of_completes {s t : State} {i : Instr} (h : Completes s i t) : exec i s = .next t := by
  cases h with
  | ldi r v => simp [exec, execLdi]
  | prn r => simp [exec, execPrn]
  | hlt => simp [exec, execHlt]
  | add p q =>
    simp only [exec, execAdd]
    exact s.alu_value (op := .add) _ rfl
  | sub p q =>
    simp only [exec, execSub]
    exact s.alu_value (op := .sub) _ rfl
  | mul p q =>
    simp only [exec, execMul]
    exact s.alu_value (op := .mul) _ rfl
  | cmp p q =>
    simp only [exec, execCmp]
    exact s.alu_flags (op := .cmp) _ rfl
  | push r => simp only [exec, execPush, State.readReg_fin, State.sp_decSp, State.memWrite_byte]
  | pop r => simp [exec, execPop]
  | call r =>
    simp only [exec, execCall, State.readReg_fin, State.sp_decSp, State.pc_decSp, State.memWrite_byte, State.reg_setByte]
  | ret => simp [exec, execRet]
  | jmp r => simp [exec, execJmp]

/-- The two raises of an ALU instruction are the raise at its first bad operand. -/
theorem firstBadOperand_pair {i : Instr} {a b : Nat} {s t : State} (hi : i.regOperands = [a, b])
    (h : (8 ≤ a ∧ t = s.raise (.invalidRegister a)) ∨ (a < 8 ∧ 8 ≤ b ∧ t = s.raise (.invalidRegister b))) :
    ∃ k, firstBadOperand i = some k ∧ t = s.raise (.invalidRegister k) := by
  rcases h with ⟨ha, ht⟩ | ⟨ha, hb, ht⟩
  · exact ⟨a, by simp [firstBadOperand, hi, ha], ht⟩
  · exact ⟨b, by simp [firstBadOperand, hi, ha, hb], ht⟩

theorem firstBadOperand_single {i : Instr} {a : Nat} {s t : State} (hi : i.regOperands = [a])
    (h : 8 ≤ a ∧ t = s.raise (.invalidRegister a)) :
    ∃ k, firstBadOperand i = some k ∧ t = s.raise (.invalidRegister k) :=
  ⟨a, by simp [firstBadOperand, hi, h.1], h.2⟩

/-- An execution completes, or raises at the first bad operand. -/
theorem exec_next {s t : State} {i : Instr} (h : exec i s = .next t) :
    Completes s i t ∨
    ∃ k, firstBadOperand i = some k ∧ t = (stateAtRaise i s).raise (.invalidRegister k) := by
  cases i with
  | ldi a v => exact (execLdi_next h).imp (fun ⟨r, ha, ht⟩ => ha ▸ ht ▸ .ldi r v) (firstBadOperand_single rfl)
  | prn a => exact (execPrn_next h).imp (fun ⟨r, ha, ht⟩ => ha ▸ ht ▸ .prn r) (firstBadOperand_single rfl)
  | hlt => exact .inl (execHlt_next h ▸ .hlt)
  | add a b =>
    exact (execAdd_next h).imp (fun ⟨p, q, ha, hb, ht⟩ => ha ▸ hb ▸ ht ▸ .add p q) (firstBadOperand_pair rfl)
  | sub a b =>
    exact (execSub_next h).imp (fun ⟨p, q, ha, hb, ht⟩ => ha ▸ hb ▸ ht ▸ .sub p q) (firstBadOperand_pair rfl)
  | mul a b =>
    exact (execMul_next h).imp (fun ⟨p, q, ha, hb, ht⟩ => ha ▸ hb ▸ ht ▸ .mul p q) (firstBadOperand_pair rfl)
  | cmp a b =>
    exact (execCmp_next h).imp (fun ⟨p, q, ha, hb, ht⟩ => ha ▸ hb ▸ ht ▸ .cmp p q) (firstBadOperand_pair rfl)
  | push a => exact (execPush_next h).imp (fun ⟨r, ha, ht⟩ => ha ▸ ht ▸ .push r) (firstBadOperand_single rfl)
  | pop a => exact (execPop_next h).imp (fun ⟨r, ha, ht⟩ => ha ▸ ht ▸ .pop r) (firstBadOperand_single rfl)
  | call a => exact (execCall_next h).imp (fun ⟨r, ha, ht⟩ => ha ▸ ht ▸ .call r) (firstBadOperand_single rfl)
  | ret => exact .inl (execRet_next h ▸ .ret)
  | jmp a => exact (execJmp_next h).imp (fun ⟨r, ha, ht⟩ => ha ▸ ht ▸ .jmp r) (firstBadOperand_single rfl)

theorem State.readReg_answers (s : State) (a : Nat) {rest : Byte → Result} (h : ∀ v, ∃ t, rest v = .next t) :
    ∃ t, s.readReg a rest = .next t := by
  by_cases ha : a < 8
  · exact (h _).imp fun t ht => (s.readReg_fin ⟨a, ha⟩ rest).trans ht
  · exact ⟨_, s.readReg_ge rest (Nat.le_of_not_lt ha)⟩

theorem State.writeReg_answers (s : State) (a : Nat) (v : Byte) {rest : State → Result}
    (h : ∀ u, ∃ t, rest u = .next t) : ∃ t, s.writeReg a v rest = .next t := by
  by_cases ha : a < 8
  · exact (h _).imp fun t ht => (s.writeReg_fin ⟨a, ha⟩ v rest).trans ht
  · exact ⟨_, s.writeReg_ge v rest (Nat.le_of_not_lt ha)⟩

theorem State.alu_answers (s : State) (op : AluOp) (a b : Nat) {rest : State → Result}
    (h : ∀ u, ∃ t, rest u = .next t) : ∃ t, s.alu op a b rest = .next t := by
  unfold State.alu State.readPair
  refine s.readReg_answers a fun va => s.readReg_answers b fun vb => ?_
  beta_reduce
  cases aluCompute op va vb with
  | value v => exact s.writeReg_answers a v h
  | flags f => exact h _

/-- Every instruction answers a next state in every state: nothing is refused and a raise is a next state
(60_exceptions.md R81). -/
theorem exec_answers (i : Instr) (s : State) : ∃ t, exec i s = .next t := by
  cases i with
  | ldi a v => simpa only [exec, execLdi] using s.writeReg_answers a v fun _ => ⟨_, rfl⟩
  | prn a => simpa only [exec, execPrn] using s.readReg_answers a fun _ => ⟨_, rfl⟩
  | hlt => exact ⟨_, rfl⟩
  | add a b => simpa only [exec, execAdd] using s.alu_answers .add a b fun _ => ⟨_, rfl⟩
  | sub a b => simpa only [exec, execSub] using s.alu_answers .sub a b fun _ => ⟨_, rfl⟩
  | mul a b => simpa only [exec, execMul] using s.alu_answers .mul a b fun _ => ⟨_, rfl⟩
  | cmp a b => simpa only [exec, execCmp] using s.alu_answers .cmp a b fun _ => ⟨_, rfl⟩
  | push a =>
    simp only [exec, execPush, State.memWrite_byte]
    exact State.readReg_answers _ a fun _ => ⟨_, rfl⟩
  | pop a =>
    simp only [exec, execPop, State.memRead_byte]
    exact State.writeReg_answers _ a _ fun _ => ⟨_, rfl⟩
  | call a =>
    simp only [exec, execCall, State.memWrite_byte]
    exact State.readReg_answers _ a fun _ => ⟨_, rfl⟩
  | ret => simp [exec, execRet]
  | jmp a => simpa only [exec, execJmp] using s.readReg_answers a fun _ => ⟨_, rfl⟩

theorem completes_of_exec {s t : State} {i : Instr} (hgood : ∀ r ∈ i.regOperands, r < 8) (h : exec i s = .next t) :
    Completes s i t := by
  rcases exec_next h with hc | ⟨k, hk, -⟩
  · exact hc
  · simp [firstBadOperand_eq_none.mpr hgood] at hk

theorem exec_of_firstBadOperand {i : Instr} {k : Nat} (s : State) (hk : firstBadOperand i = some k) :
    exec i s = .next ((stateAtRaise i s).raise (.invalidRegister k)) := by
  obtain ⟨t, ht⟩ := exec_answers i s
  rcases exec_next ht with hc | ⟨k', hk', rfl⟩
  · simp [hc.firstBadOperand] at hk
  · obtain rfl : k = k' := Option.some.inj (hk.symm.trans hk')
    exact ht

/-! ### What completing leaves unchanged -/

section
variable {s t : State} {i : Instr}

theorem Completes.fault_eq (h : Completes s i t) : t.fault = s.fault := by cases h <;> rfl

theorem Completes.runState_eq (h : Completes s i t) :
    t.runState = if i = .hlt then .halted else s.runState := by cases h <;> rfl

/-- Only a control transfer leaves pc elsewhere than after the instruction (10_state.md R14). -/
theorem Completes.pc_eq (h : Completes s i t) (hi : i.isTransfer = false) : t.pc = s.pc + i.length := by
  cases h with
  | call | ret | jmp => cases hi
  | _ => rfl

/-- A control transfer goes to a byte (44_control_transfer.md R73). -/
theorem Completes.pc_lt (h : Completes s i t) (hi : i.isTransfer = true) : t.pc < 256 := by
  cases h with
  | call | ret | jmp => exact BitVec.isLt _
  | _ => cases hi

theorem Completes.mem_wf (h : Completes s i t) (hs : Memory.wf s.mem = true) : Memory.wf t.mem = true := by
  cases h with
  | push | call => exact Memory.wf_write _ _ _ hs (BitVec.isLt _)
  | _ => exact hs

theorem Completes.fl_eq (h : Completes s i t) : t.fl = s.fl ∨ ∃ a b : Fin 8, i = .cmp a b := by
  cases h with
  | cmp p q => exact .inr ⟨p, q, rfl⟩
  | _ => exact .inl rfl

theorem State.reg_setReg_eq_or (s : State) (p r : Fin 8) (v : Byte) : (s.setReg p v).reg r = s.reg r ∨ r = p := by
  by_cases hr : r = p
  · exact .inr hr
  · exact .inl (s.reg_setReg_ne v hr)

/-- A register changes only as the destination, or as the stack pointer of a stack instruction (10_state.md R8 to
R10). -/
theorem Completes.reg_eq (h : Completes s i t) (r : Fin 8) :
    t.reg r = s.reg r ∨ i.destination = some r.val ∨ (r = 7 ∧ i.usesStack = true) := by
  cases h with
  | ldi p | add p | sub p | mul p =>
    exact (s.reg_setReg_eq_or p r _).imp id fun (e : r = p) => .inl (e ▸ rfl)
  | prn | hlt | cmp | jmp => exact .inl rfl
  | push | call | ret => exact (s.reg_setReg_eq_or 7 r _).imp id fun e => .inr ⟨e, rfl⟩
  | pop p =>
    rcases (s.setReg p (s.byte s.sp.toNat)).reg_setReg_eq_or 7 r _ with hsp | hr
    · exact (s.reg_setReg_eq_or p r _).imp hsp.trans fun (e : r = p) => .inl (e ▸ rfl)
    · exact .inr (.inr ⟨hr, rfl⟩)

end

/-! ### What raising leaves unchanged -/

section
variable (i : Instr) (s : State)

@[simp] theorem pc_stateAtRaise : (stateAtRaise i s).pc = s.pc := by cases i <;> rfl

@[simp] theorem fl_stateAtRaise : (stateAtRaise i s).fl = s.fl := by cases i <;> rfl

theorem stateAtRaise_mem_wf (hs : Memory.wf s.mem = true) : Memory.wf (stateAtRaise i s).mem = true := by
  cases i with
  | call => exact Memory.wf_write _ _ _ hs (BitVec.isLt _)
  | _ => exact hs

theorem reg_stateAtRaise (r : Fin 8) :
    (stateAtRaise i s).reg r = s.reg r ∨ (r = 7 ∧ i.usesStack = true) := by
  cases i with
  | push | call => exact (s.reg_setReg_eq_or 7 r _).imp id fun e => ⟨e, rfl⟩
  | _ => exact .inl rfl

theorem stateAtRaise_eq_self {i : Instr} (hi : ∀ a, i ≠ .push a ∧ i ≠ .call a) : stateAtRaise i s = s := by
  cases i with
  | push a => exact absurd rfl (hi a).1
  | call a => exact absurd rfl (hi a).2
  | _ => rfl

end

/-! ### The step -/

theorem decodeWith_eq_unknown {m : OpcodeMap} {ir : Byte} (h : ∀ op, m op ≠ ir) (opA opB : Byte) :
    decodeWith m ir opA opB = .unknown ir := by
  simp [decodeWith, lookup_eq_none.mpr h]

/-- When a step answers `t`: a Running core raises at the fetch or at an unknown opcode, or executes what it decodes
(40_fetch_decode_execute.md R53 to R57). -/
theorem stepWith_next_iff {m : OpcodeMap} {s t : State} :
    stepWith m s = .next t ↔ s.runState = .running ∧
      ((254 ≤ s.pc ∧ t = s.raise (.addressOutOfRange (max s.pc 256 : Nat))) ∨
       (s.pc ≤ 253 ∧ (∀ op, m op ≠ s.byte s.pc) ∧ t = s.raise (.unknownOpcode (s.byte s.pc))) ∨
       (s.pc ≤ 253 ∧ ∃ i, s.decoded m = .instr i ∧ exec i s = .next t)) := by
  constructor
  · intro h
    obtain ⟨hr, hhigh | ⟨hp, hl, ht⟩ | ⟨hp, op, hl, he⟩⟩ := stepWith_next h
    · exact ⟨hr, .inl hhigh⟩
    · exact ⟨hr, .inr (.inl ⟨hp, lookup_eq_none.mp hl, ht⟩)⟩
    · exact ⟨hr, .inr (.inr ⟨hp, _, by simp [State.decoded, decodeWith, hl], he⟩)⟩
  · rintro ⟨hr, ⟨hp, rfl⟩ | ⟨hp, hm, rfl⟩ | ⟨hp, i, hd, he⟩⟩
    · exact stepWith_high hr hp
    · rw [stepWith_low hr hp, decodeWith_eq_unknown hm]
      rfl
    · rw [stepWith_low hr hp, show decodeWith m _ _ _ = .instr i from hd]
      exact he

end Sys2Proof.Machine
end

section
/-! The statements of 10_state.md: the registers, pc, FL, the run state and the invariant of a step. -/

namespace Sys2Proof.Machine

/-! ### The invariant of a step -/

/-- A raise keeps what the invariant says of pc and memory, and sets the record and the run state together. -/
theorem State.raise_inv {u : State} (f : CoreFault) (hp : u.pc ≤ 256) (hm : Memory.wf u.mem = true) :
    (u.raise f).Inv :=
  ⟨hp, hm, by simp⟩

theorem length_le_three (i : Instr) : i.length ≤ 3 := by
  unfold Instr.length
  cases i.op <;> decide

theorem Completes.inv {s t : State} {i : Instr} (h : Completes s i t) (hs : s.Inv) (hr : s.runState = .running)
    (hp : s.pc ≤ 253) : t.Inv where
  pcRange := by
    cases hi : i.isTransfer with
    | true => exact Nat.le_of_lt (h.pc_lt hi)
    | false =>
      have hlen := length_le_three i
      rw [h.pc_eq hi]
      omega
  memWf := h.mem_wf hs.memWf
  record := by
    have hnone : ¬ s.fault.isSome = true := fun hf => by simpa [hr] using hs.record.mp hf
    have hrun : t.runState ≠ .faulted := by
      rw [h.runState_eq, hr]
      split <;> decide
    rw [h.fault_eq]
    exact iff_of_false hnone hrun

/-- Settles O48: a fetch or decode raise, a completed instruction and a raise in an instruction each keep the
invariant. -/
theorem stepKeepsInv : Obligations.StepKeepsInv := by
  intro m s t hs h
  obtain ⟨hr, ⟨-, rfl⟩ | ⟨-, -, rfl⟩ | ⟨hp, i, -, he⟩⟩ := stepWith_next_iff.mp h
  · exact State.raise_inv _ hs.pcRange hs.memWf
  · exact State.raise_inv _ hs.pcRange hs.memWf
  · rcases exec_next he with hc | ⟨k, -, rfl⟩
    · exact hc.inv hs hr hp
    · exact State.raise_inv _ (by simpa using hs.pcRange) (stateAtRaise_mem_wf i s hs.memWf)

/-! ### FL is never read -/

theorem Completes.setFl {s t : State} {i : Instr} (h : Completes s i t) (f : Fl) :
    ∃ g, Completes (s.setFl f) i (t.setFl g) := by
  cases h with
  | ldi r v => exact ⟨f, .ldi r v⟩
  | prn r => exact ⟨f, .prn r⟩
  | hlt => exact ⟨f, .hlt⟩
  | add p q => exact ⟨f, .add p q⟩
  | sub p q => exact ⟨f, .sub p q⟩
  | mul p q => exact ⟨f, .mul p q⟩
  | cmp p q => exact ⟨compareFlags (s.reg p) (s.reg q), .cmp p q⟩
  | push r => exact ⟨f, .push r⟩
  | pop r => exact ⟨f, .pop r⟩
  | call r => exact ⟨f, .call r⟩
  | ret => exact ⟨f, .ret⟩
  | jmp r => exact ⟨f, .jmp r⟩

theorem stateAtRaise_setFl (i : Instr) (s : State) (f : Fl) :
    stateAtRaise i (s.setFl f) = (stateAtRaise i s).setFl f := by cases i <;> rfl

theorem exec_setFl {s t : State} {i : Instr} (h : exec i s = .next t) (f : Fl) :
    ∃ g, exec i (s.setFl f) = .next (t.setFl g) := by
  rcases exec_next h with hc | ⟨k, hk, rfl⟩
  · exact (hc.setFl f).imp fun g => exec_of_completes
  · refine ⟨f, ?_⟩
    rw [exec_of_firstBadOperand _ hk, stateAtRaise_setFl]
    rfl

theorem stepWith_setFl {m : OpcodeMap} {s t : State} (h : stepWith m s = .next t) (f : Fl) :
    ∃ g, stepWith m (s.setFl f) = .next (t.setFl g) := by
  obtain ⟨hr, ⟨hp, rfl⟩ | ⟨hp, hm, rfl⟩ | ⟨hp, i, hd, he⟩⟩ := stepWith_next_iff.mp h
  · exact ⟨f, stepWith_next_iff.mpr ⟨hr, .inl ⟨hp, rfl⟩⟩⟩
  · exact ⟨f, stepWith_next_iff.mpr ⟨hr, .inr (.inl ⟨hp, hm, rfl⟩)⟩⟩
  · obtain ⟨g, hg⟩ := exec_setFl he f
    exact ⟨g, stepWith_next_iff.mpr ⟨hr, .inr (.inr ⟨hp, i, hd, hg⟩)⟩⟩

theorem core_run_setFl {k : Nat} {s t : State} (h : Host.Core.run core k s = .next t) (f : Fl) :
    ∃ g, Host.Core.run core k (s.setFl f) = .next (t.setFl g) := by
  induction k generalizing s f with
  | zero =>
    obtain rfl : t = s := next_inj h
    exact ⟨f, rfl⟩
  | succ k ih =>
    obtain ⟨u, hu, hrun⟩ := core_run_succ_next.mp h
    obtain ⟨g, hg⟩ := stepWith_setFl hu f
    exact (ih hrun g).imp fun g' hg' => core_run_succ_next.mpr ⟨u.setFl g, hg, hg'⟩

/-- Settles O52, by induction on the number of steps: every step carries a replaced FL to a replaced FL. -/
theorem flIsNeverRead : Obligations.FlIsNeverRead := by
  intro k s t f h
  obtain ⟨g, hg⟩ := core_run_setFl h f
  exact ⟨t.setFl g, hg, rfl⟩

/-! ### The run state -/

theorem push_or_call_or_neither (i : Instr) :
    (∃ a, i = .push a) ∨ (∃ a, i = .call a) ∨ ∀ a, i ≠ .push a ∧ i ≠ .call a := by
  cases i <;> simp

/-- Settles O18: a completed instruction is Halted only as HLT and never Faulted; the other three ends of a step are
the raises. -/
theorem runStateTransitions : Obligations.RunStateTransitions := by
  refine ⟨rfl, fun m s t h => ?_⟩
  obtain ⟨hr, ⟨hp, rfl⟩ | ⟨hp, hm, rfl⟩ | ⟨hp, i, hd, he⟩⟩ := stepWith_next_iff.mp h
  · exact ⟨hr, by simp, fun _ => ⟨s, _, rfl, .inl ⟨rfl, .inl hp⟩⟩⟩
  · exact ⟨hr, by simp, fun _ => ⟨s, _, rfl, .inl ⟨rfl, .inr (.inl ⟨hp, hm⟩)⟩⟩⟩
  · rcases exec_next he with hc | ⟨k, hk, rfl⟩
    · by_cases hi : i = .hlt
      · exact ⟨hr, fun _ => hi ▸ hd, by simp [hc.runState_eq, hi]⟩
      · exact ⟨hr, by simp [hc.runState_eq, hi, hr], by simp [hc.runState_eq, hi, hr]⟩
    · obtain ⟨hmem, hbad⟩ := firstBadOperand_some hk
      refine ⟨hr, by simp, fun _ => ⟨_, _, rfl, ?_⟩⟩
      rcases push_or_call_or_neither i with ⟨a, rfl⟩ | ⟨a, rfl⟩ | hi
      · obtain rfl : k = a := List.mem_singleton.mp hmem
        exact .inr (.inl ⟨hp, k, hd, hbad, rfl⟩)
      · obtain rfl : k = a := List.mem_singleton.mp hmem
        exact .inr (.inr ⟨hp, k, hd, hbad, rfl⟩)
      · exact .inl ⟨stateAtRaise_eq_self s hi, .inr (.inr ⟨hp, i, hd, ⟨k, hmem, hbad⟩, hi⟩)⟩

/-- Settles O23. -/
theorem goodRegistersComplete : Obligations.GoodRegistersComplete := by
  intro i s hgood
  obtain ⟨t, ht⟩ := exec_answers i s
  have hc := completes_of_exec hgood ht
  exact ⟨t, ht, hc.fault_eq, fun hi => by rw [hc.runState_eq, if_neg hi], fun hi => by rw [hc.runState_eq, if_pos hi]⟩

/-! ### FL -/

theorem Fl.eq_of_ne_none {f : Fl} (h : f ≠ .none) : f = .equal ∨ f = .greater ∨ f = .less := by
  cases f <;> simp at h ⊢

theorem Fl.one_bit_of_ne_none {f : Fl} (h : f ≠ .none) :
    ((List.range 3).filter fun k => f.bits.getLsbD k).length = 1 := by
  cases f with
  | none => exact absurd rfl h
  | equal | greater | less => rfl

/-- Settles O31: FL becomes `compareFlags` of the two registers, which is never empty and does not see FL. -/
theorem compareLeavesOneFlag : Obligations.CompareLeavesOneFlag := by
  intro s a b old
  have hne := compareFlags_ne_none (s.reg a) (s.reg b)
  exact ⟨(s.setFl (compareFlags (s.reg a) (s.reg b))).advance 3, exec_of_completes (.cmp (s := s.setFl old) a b),
    Fl.eq_of_ne_none hne, Fl.one_bit_of_ne_none hne, exec_of_completes (.cmp a b)⟩

/-- Settles O51: of the ends of a step only a completed CMP has another FL. -/
theorem onlyCmpWritesFl : Obligations.OnlyCmpWritesFl := by
  intro m s t h hne
  obtain ⟨-, ⟨-, rfl⟩ | ⟨-, -, rfl⟩ | ⟨-, i, hd, he⟩⟩ := stepWith_next_iff.mp h
  · exact absurd rfl hne
  · exact absurd rfl hne
  · rcases exec_next he with hc | ⟨k, -, rfl⟩
    · obtain ⟨a, b, rfl⟩ := hc.fl_eq.resolve_left hne
      exact ⟨a, b, hd⟩
    · exact absurd (fl_stateAtRaise i s) hne

/-! ### The registers and pc -/

/-- Settles O54. -/
theorem registersChangeOnlyByUse : Obligations.RegistersChangeOnlyByUse := by
  intro m s t r h hne
  obtain ⟨-, ⟨-, rfl⟩ | ⟨-, -, rfl⟩ | ⟨-, i, hd, he⟩⟩ := stepWith_next_iff.mp h
  · exact absurd rfl hne
  · exact absurd rfl hne
  · rcases exec_next he with hc | ⟨k, -, rfl⟩
    · exact ⟨i, hd, (hc.reg_eq r).resolve_left hne⟩
    · exact ⟨i, hd, .inr ((reg_stateAtRaise i s r).resolve_left hne)⟩

/-- Settles O50. -/
theorem advanceByLength : Obligations.AdvanceByLength :=
  fun _ _ _ h hi hgood => (completes_of_exec hgood h).pc_eq hi

theorem toNat_sub_one (v : Byte) : (v - 1).toNat = (v.toNat + 255) % 256 := by
  rw [BitVec.toNat_sub, Nat.add_comm]
  rfl

theorem toNat_add_one (v : Byte) : (v + 1).toNat = (v.toNat + 1) % 256 := BitVec.toNat_add v 1

/-- Settles O37: each of the four completes, and the SP it leaves is a byte's sum or difference. -/
theorem stackPointerWraps : Obligations.StackPointerWraps := by
  intro s a
  refine ⟨⟨_, exec_of_completes (.push a), rfl, ?_⟩, ⟨_, exec_of_completes (.call a), rfl, ?_⟩,
    fun ha => ⟨_, exec_of_completes (.pop a), rfl, ?_⟩, ⟨_, exec_of_completes .ret, rfl, ?_⟩⟩
  · rw [State.sp_advance, State.sp_setByte, State.sp_decSp, toNat_sub_one]
  · rw [State.sp_jumpTo, State.sp_setByte, State.sp_decSp, toNat_sub_one]
  · have hsp : (s.setReg a (s.byte s.sp.toNat)).sp = s.sp := s.reg_setReg_ne _ ha.symm
    rw [State.sp_advance, State.sp_incSp, hsp, toNat_add_one]
  · rw [State.sp_incSp, State.sp_jumpTo, toNat_add_one]

/-- Settles O1: at reset the core is Running with pc 0, so the first step fetches at 0, 1 and 2. -/
theorem resetStartsAtAddressZero : Obligations.ResetStartsAtAddressZero :=
  ⟨rfl, fun mem => stepWith_low (s := { State.reset with mem := mem }) rfl (Nat.zero_le 253)⟩

/-- Settles O5. -/
theorem registerAccessContract : Obligations.RegisterAccessContract :=
  ⟨State.readReg_fin, State.writeReg_fin, fun s _ rest => s.readReg_ge rest, fun s _ v rest => s.writeReg_ge v rest⟩

end Sys2Proof.Machine
end

section
/-! The statements of 20_memory.md: access to memory, the canonical form, which steps write memory, and stores into
the instruction stream. -/

namespace Sys2Proof

/-! ### Decoding bytes that begin with an encoding -/

theorem regByte_toNat {r : Nat} (h : r < 256) : (regByte r).toNat = r := by
  simpa [regByte] using h

/-- An instruction is what its operand bytes decode to, whatever stands in the places it does not use (30_encoding.md
R45, R48). -/
theorem Op.instr_of_operandBytes_isPrefix {i : Instr} {opA opB : Byte} (hwf : i.wf = true)
    (h : i.operandBytes <+: [opA, opB]) : i.op.instr opA opB = i := by
  cases i with
  | hlt | ret => rfl
  | prn a | push a | pop a | call a | jmp a =>
    obtain rfl : regByte a = opA := by simpa [Instr.operandBytes] using h
    have ha : a < 256 := by simpa [Instr.wf, Instr.regOperands] using hwf
    simp [Op.instr, Instr.op, regByte_toNat ha]
  | ldi a v =>
    obtain ⟨rfl, rfl⟩ : regByte a = opA ∧ v = opB := by simpa [Instr.operandBytes] using h
    have ha : a < 256 := by simpa [Instr.wf, Instr.regOperands] using hwf
    simp [Op.instr, Instr.op, regByte_toNat ha]
  | add a b | sub a b | mul a b | cmp a b =>
    obtain ⟨rfl, rfl⟩ : regByte a = opA ∧ regByte b = opB := by simpa [Instr.operandBytes] using h
    obtain ⟨ha, hb⟩ : a < 256 ∧ b < 256 := by simpa [Instr.wf, Instr.regOperands] using hwf
    simp [Op.instr, Instr.op, regByte_toNat ha, regByte_toNat hb]

/-- Three bytes that begin with a well-formed instruction's encoding decode to it (30_encoding.md R42 to R46). -/
theorem decodeWith_of_encodeWith_isPrefix {m : OpcodeMap} {i : Instr} {ir opA opB : Byte} (hm : m.Injective)
    (hwf : i.wf = true) (h : encodeWith m i <+: [ir, opA, opB]) : decodeWith m ir opA opB = .instr i := by
  obtain ⟨rfl, hops⟩ : m i.op = ir ∧ i.operandBytes <+: [opA, opB] := by simpa [encodeWith] using h
  simp [decodeWith, lookup_opcode hm, Op.instr_of_operandBytes_isPrefix hwf hops]

theorem length_encodeWith (m : OpcodeMap) (i : Instr) : (encodeWith m i).length = i.length := by
  cases i <;> rfl

end Sys2Proof

namespace Sys2Proof.Machine

/-! ### A stored encoding runs -/

@[simp] theorem State.pc_storeBytes (s : State) (a : Nat) (bs : List Byte) : (s.storeBytes a bs).pc = s.pc := by
  obtain ⟨m, h⟩ := State.storeBytes_mem_only bs s a
  rw [h]

@[simp] theorem State.runState_storeBytes (s : State) (a : Nat) (bs : List Byte) :
    (s.storeBytes a bs).runState = s.runState := by
  obtain ⟨m, h⟩ := State.storeBytes_mem_only bs s a
  rw [h]

/-- Up to three bytes stored at `a` are what is read from `a` on. -/
theorem State.storeBytes_isPrefix_bytes (s : State) {a : Nat} {bs : List Byte} (hlen : bs.length ≤ 3) (ha : a ≤ 253) :
    bs <+: [(s.storeBytes a bs).byte a, (s.storeBytes a bs).byte (a + 1), (s.storeBytes a bs).byte (a + 2)] := by
  simp only [State.byte_storeBytes bs s a _ (by omega : a + bs.length ≤ 256)]
  match bs, hlen with
  | [], _ => simp
  | [_], _ => simp
  | [_, _], _ => simp
  | [_, _, _], _ => simp

/-- A Running core whose fetch succeeds executes what the bytes at pc decode to (40_fetch_decode_execute.md R57). -/
theorem stepWith_eq_execDecoded {m : OpcodeMap} {s : State} (hr : s.runState = .running) (hp : s.pc ≤ 253) :
    stepWith m s = execDecoded (s.decoded m) s :=
  stepWith_low hr hp

theorem stepWith_of_decoded {m : OpcodeMap} {s : State} {i : Instr} (hr : s.runState = .running) (hp : s.pc ≤ 253)
    (hd : s.decoded m = .instr i) : stepWith m s = exec i s := by
  rw [stepWith_eq_execDecoded hr hp, hd]
  rfl

theorem decoded_storeBytes_encodeWith {m : OpcodeMap} {i : Instr} (s : State) (hm : m.Injective) (hwf : i.wf = true)
    (hp : s.pc ≤ 253) : (s.storeBytes s.pc (encodeWith m i)).decoded m = .instr i := by
  have hlen : (encodeWith m i).length ≤ 3 := length_encodeWith m i ▸ length_le_three i
  rw [State.decoded, State.pc_storeBytes]
  exact decodeWith_of_encodeWith_isPrefix hm hwf (s.storeBytes_isPrefix_bytes hlen hp)

/-- Settles O57: the three bytes fetched begin with the stored encoding, so they decode to the instruction. -/
theorem storedEncodingRuns : Obligations.StoredEncodingRuns := by
  intro m i s hm hwf hr hp
  exact stepWith_of_decoded (by simpa using hr) (by simpa using hp) (decoded_storeBytes_encodeWith s hm hwf hp)

/-! ### Access to memory -/

theorem State.memRead_in (s : State) {a : Int} (rest : Byte → Result) (h0 : 0 ≤ a) (h1 : a < 256) :
    s.memRead a rest = rest (s.byte a.toNat) :=
  if_pos ⟨h0, h1⟩

theorem State.memWrite_in (s : State) {a : Int} (v : Byte) (rest : State → Result) (h0 : 0 ≤ a) (h1 : a < 256) :
    s.memWrite a v rest = rest (s.setByte a.toNat v) :=
  if_pos ⟨h0, h1⟩

/-- Settles O6. -/
theorem memoryAccessContract : Obligations.MemoryAccessContract :=
  ⟨fun s _ => s.memRead_in, fun s _ => s.memWrite_in,
    fun s _ rest ha => s.memRead_out rest (by omega), fun s _ v rest ha => s.memWrite_out v rest (by omega)⟩

/-- Settles O7: in range the write is `setByte`, whose cells are those of `Memory.write`. -/
theorem writeChangesOneCell : Obligations.WriteChangesOneCell :=
  ⟨fun s a v h0 h1 => ⟨s.setByte a.toNat v, s.memWrite_in v _ h0 h1, s.byte_setByte_same _ v,
      fun _ hb => s.byte_setByte_ne v hb, rfl, rfl, rfl, rfl, rfl, rfl⟩,
    fun s _ h0 h1 => s.memRead_in _ h0 h1, fun _ => rfl⟩

/-! ### The canonical form -/

theorem Memory.read_of_all_above {m : Memory} {x : Nat} (h : ∀ c ∈ m, x < c.1) : Memory.read m x = memReset := by
  induction m with
  | nil => rfl
  | cons c m ih =>
    obtain ⟨hx, hm⟩ := List.forall_mem_cons.mp h
    rw [Memory.read_cons, if_neg (Nat.ne_of_gt hx), ih hm]

/-- A canonical memory that reads as another at its own first address is not wholly below the other's cells. -/
theorem Memory.not_all_above_head {a : Nat} {v : Byte} {m n : Memory} (hm : Memory.wf ((a, v) :: m) = true)
    (h : Memory.read ((a, v) :: m) a = Memory.read n a) : ¬ ∀ c ∈ n, a < c.1 := by
  intro hn
  obtain ⟨-, hv, -, -⟩ := (Memory.wf_cons_iff a v m).mp hm
  rw [Memory.read_cons, if_pos rfl, Memory.read_of_all_above hn] at h
  exact hv h

theorem Memory.head_le {a b : Nat} {v w : Byte} {m n : Memory} (hm : Memory.wf ((a, v) :: m) = true)
    (hn : Memory.wf ((b, w) :: n) = true) (h : Memory.read ((a, v) :: m) a = Memory.read ((b, w) :: n) a) : b ≤ a := by
  obtain ⟨-, -, hb, -⟩ := (Memory.wf_cons_iff b w n).mp hn
  refine Nat.le_of_not_lt fun hab => ?_
  exact Memory.not_all_above_head hm h (List.forall_mem_cons.mpr ⟨hab, fun c hc => hab.trans (hb c hc)⟩)

/-- Behind one first address that neither rest lists again, memories that read the same have rests that do. -/
theorem Memory.read_eq_of_read_cons_eq {a : Nat} {v w : Byte} {m n : Memory} (hm : ∀ c ∈ m, a < c.1)
    (hn : ∀ c ∈ n, a < c.1) (h : ∀ x, Memory.read ((a, v) :: m) x = Memory.read ((a, w) :: n) x) (x : Nat) :
    Memory.read m x = Memory.read n x := by
  by_cases hx : a = x
  · subst hx
    rw [Memory.read_of_all_above hm, Memory.read_of_all_above hn]
  · simpa [Memory.read_cons, hx] using h x

/-- Settles O8, by induction on the first memory: both begin at the same address with the same byte, and the rests
read the same because neither lists that address again. -/
theorem equalReadsEqualMemory : Obligations.EqualReadsEqualMemory := by
  intro m
  induction m with
  | nil =>
    rintro (_ | ⟨⟨b, w⟩, n⟩) hm hn h
    · rfl
    · exact absurd (by simp) (Memory.not_all_above_head hn (h b).symm)
  | cons c m ih =>
    obtain ⟨a, v⟩ := c
    rintro (_ | ⟨⟨b, w⟩, n⟩) hm hn h
    · exact absurd (by simp) (Memory.not_all_above_head hm (h a))
    · obtain rfl : a = b := Nat.le_antisymm (Memory.head_le hn hm (h b).symm) (Memory.head_le hm hn (h a))
      obtain ⟨-, -, hma, hmwf⟩ := (Memory.wf_cons_iff a v m).mp hm
      obtain ⟨-, -, hna, hnwf⟩ := (Memory.wf_cons_iff a w n).mp hn
      obtain rfl : v = w := by simpa [Memory.read_cons] using h a
      rw [ih n hmwf hnwf (Memory.read_eq_of_read_cons_eq hma hna h)]

/-! ### Which steps write memory -/

theorem State.byte_setByte_eq_or (s : State) (a x : Nat) (v : Byte) : (s.setByte a v).byte x = s.byte x ∨ x = a := by
  by_cases hx : x = a
  · exact .inr hx
  · exact .inl (s.byte_setByte_ne v hx)

/-- A completed instruction changes a byte of memory only as a PUSH or CALL, at the lowered SP (20_memory.md R29). -/
theorem Completes.byte_eq {s t : State} {i : Instr} (h : Completes s i t) (x : Nat) :
    t.byte x = s.byte x ∨ (x = (s.sp - 1).toNat ∧ ∃ a, i = .push a ∨ i = .call a) := by
  cases h with
  | push r => exact (s.decSp.byte_setByte_eq_or _ x _).imp id fun hx => ⟨hx, r, .inl rfl⟩
  | call r => exact (s.decSp.byte_setByte_eq_or _ x _).imp id fun hx => ⟨hx, r, .inr rfl⟩
  | _ => exact .inl rfl

/-- Before it raises an instruction has changed a byte of memory only as a CALL, at the lowered SP. -/
theorem byte_stateAtRaise (i : Instr) (s : State) (x : Nat) :
    (stateAtRaise i s).byte x = s.byte x ∨ (x = (s.sp - 1).toNat ∧ ∃ a, i = .call a) := by
  cases i with
  | call a => exact (s.decSp.byte_setByte_eq_or _ x _).imp id fun hx => ⟨hx, a, rfl⟩
  | _ => exact .inl rfl

/-- Settles O55: the fetch and decode raises leave memory alone, and an execution is a completion or a raise. -/
theorem onlyPushesWriteMemory : Obligations.OnlyPushesWriteMemory := by
  intro m s t x h hne
  obtain ⟨-, ⟨-, rfl⟩ | ⟨-, -, rfl⟩ | ⟨-, i, hd, he⟩⟩ := stepWith_next_iff.mp h
  · exact absurd rfl hne
  · exact absurd rfl hne
  · rcases exec_next he with hc | ⟨k, -, rfl⟩
    · obtain ⟨hx, a, rfl | rfl⟩ := (hc.byte_eq x).resolve_left hne
      · exact ⟨hx, a, .inl hd⟩
      · exact ⟨hx, a, .inr hd⟩
    · obtain ⟨hx, a, rfl⟩ := (byte_stateAtRaise i s x).resolve_left hne
      exact ⟨hx, a, .inr hd⟩

/-! ### A pushed byte runs -/

theorem State.reg_decSp (s : State) (r : Fin 8) : s.decSp.reg r = if r = 7 then s.sp - 1 else s.reg r :=
  s.reg_setReg 7 r (s.sp - 1)

/-- Settles O56: the PUSH completes, and of the three bytes the next step fetches only the first is the stored one. -/
theorem pushedByteIsFetchedNext : Obligations.PushedByteIsFetchedNext := by
  intro s a hr hp hd hsp
  have hstep : step s = .next ((s.decSp.setByte (s.pc + 2) (s.decSp.reg a)).advance 2) := by
    rw [← hsp]
    exact (stepWith_of_decoded hr (by omega) hd).trans (exec_of_completes (.push a))
  refine ⟨_, hstep, ?_⟩
  rw [step, stepWith_eq_execDecoded]
  · simp [State.decoded, decode, State.byte_setByte_ne, State.reg_decSp]
  · exact hr
  · exact Nat.add_le_add_right hp 2

end Sys2Proof.Machine
end

section
/-! The statements of 30_encoding.md: decoding an encoding and encoding what decodes, the unused bytes, the opcode map,
and a line of the text image. -/

namespace Sys2Proof

/-! ### Decoding an encoding -/

/-- With two more bytes behind it, every encoding fills the three bytes of a fetch (30_encoding.md R44, R48). -/
theorem encodeWith_append_pair (m : OpcodeMap) (i : Instr) (next1 next2 : Byte) :
    ∃ ir opA opB tail, encodeWith m i ++ [next1, next2] = ir :: opA :: opB :: tail ∧
      encodeWith m i <+: [ir, opA, opB] := by
  cases i with
  | hlt | ret => exact ⟨_, next1, next2, [], rfl, [next1, next2], rfl⟩
  | prn a | push a | pop a | call a | jmp a => exact ⟨_, regByte a, next1, [next2], rfl, [next1], rfl⟩
  | ldi a v => exact ⟨_, regByte a, v, [next1, next2], rfl, [], rfl⟩
  | add a b | sub a b | mul a b | cmp a b => exact ⟨_, regByte a, regByte b, [next1, next2], rfl, [], rfl⟩

/-! ### What decodes -/

theorem decodeWith_eq_instr_iff {m : OpcodeMap} {ir opA opB : Byte} {i : Instr} :
    decodeWith m ir opA opB = .instr i ↔ ∃ op, lookup m ir = some op ∧ op.instr opA opB = i := by
  cases h : lookup m ir <;> simp [decodeWith, h]

@[simp] theorem regByte_of_toNat (v : Byte) : regByte v.toNat = v := by simp [regByte]

/-- A decoded register operand is one byte (30_encoding.md R45(a)). -/
theorem Op.wf_instr (op : Op) (opA opB : Byte) : (op.instr opA opB).wf = true := by
  have hA : opA.toNat < 256 := opA.isLt
  have hB : opB.toNat < 256 := opB.isLt
  cases op with
  | hlt | ret => rfl
  | ldi | prn | push | pop | call | jmp => simp [Op.instr, Instr.wf, Instr.regOperands, hA]
  | add | sub | mul | cmp => simp [Op.instr, Instr.wf, Instr.regOperands, hA, hB]

theorem Op.length_instr (op : Op) (opA opB : Byte) : (op.instr opA opB).length = op.format.length := by
  rw [Instr.length, Op.op_instr]

theorem Op.encodeWith_instr (m : OpcodeMap) (op : Op) (opA opB : Byte) :
    encodeWith m (op.instr opA opB) = [m op, opA, opB].take op.format.length := by
  cases op with
  | hlt | ret => rfl
  | _ => simp [encodeWith, Op.instr, Instr.op, Instr.operandBytes, Op.format, Format.length]

/-! ### The bytes an instruction does not use -/

theorem Op.instr_of_length_le_two {op : Op} (h : op.format.length ≤ 2) (opA b c : Byte) :
    op.instr opA b = op.instr opA c := by
  cases op with
  | ldi | add | sub | mul | cmp => exact absurd h (by decide)
  | _ => rfl

theorem Op.instr_of_length_eq_one {op : Op} (h : op.format.length = 1) (a b c d : Byte) :
    op.instr a b = op.instr c d := by
  cases op with
  | hlt | ret => rfl
  | _ => exact absurd h (by decide)

/-! ### The opcode map of the hardware -/

theorem decode_opcodes (op : Op) (opA opB : Byte) : decode (opcodes op) opA opB = .instr (op.instr opA opB) :=
  decodeWith_eq_instr_iff.mpr ⟨op, lookup_opcode opcodes_injective op, rfl⟩

theorem decode_of_not_mem_opcodes {ir : Byte} (h : ir ∉ Op.all.map opcodes) (opA opB : Byte) :
    decode ir opA opB = .unknown ir :=
  Machine.decodeWith_eq_unknown (fun op hop => h (List.mem_map.mpr ⟨op, op.mem_all, hop⟩)) opA opB

end Sys2Proof

namespace Sys2Proof.Machine

/-- Settles O11: the bytes fetched begin with the encoding, and such bytes decode to the instruction. -/
theorem decodeOfEncode : Obligations.DecodeOfEncode := by
  intro m i next1 next2 hm hwf
  obtain ⟨ir, opA, opB, tail, happ, hpre⟩ := encodeWith_append_pair m i next1 next2
  exact ⟨ir, opA, opB, tail, happ, decodeWith_of_encodeWith_isPrefix hm hwf hpre⟩

/-- Settles O12: what decodes is a mnemonic's instruction, and the mnemonic's opcode is the byte looked up. -/
theorem encodeOfDecode : Obligations.EncodeOfDecode := by
  intro m ir opA opB i h
  obtain ⟨op, hop, rfl⟩ := decodeWith_eq_instr_iff.mp h
  exact ⟨op.wf_instr opA opB, by rw [op.encodeWith_instr, op.length_instr, lookup_some hop]⟩

/-- Settles O13: the mnemonic is found by the first byte alone, and it drops the bytes beyond its format. -/
theorem unusedBytesIgnored : Obligations.UnusedBytesIgnored := by
  intro m ir opA opB i h
  obtain ⟨op, hop, rfl⟩ := decodeWith_eq_instr_iff.mp h
  rw [op.length_instr]
  exact ⟨fun hlen b => decodeWith_eq_instr_iff.mpr ⟨op, hop, Op.instr_of_length_le_two hlen opA b opB⟩,
    fun hlen a b => decodeWith_eq_instr_iff.mpr ⟨op, hop, Op.instr_of_length_eq_one hlen a b opA opB⟩⟩

/-- Settles O9: the bytes written out are the opcodes of the twelve mnemonics. -/
theorem specWordsDecode : Obligations.SpecWordsDecode := fun opA opB =>
  ⟨decode_opcodes .ldi opA opB, decode_opcodes .prn opA opB, decode_opcodes .hlt opA opB,
    decode_opcodes .add opA opB, decode_opcodes .sub opA opB, decode_opcodes .mul opA opB,
    decode_opcodes .cmp opA opB, decode_opcodes .push opA opB, decode_opcodes .pop opA opB,
    decode_opcodes .call opA opB, decode_opcodes .ret opA opB, decode_opcodes .jmp opA opB⟩

/-- Settles O10. -/
theorem unknownOpcodeBytes : Obligations.UnknownOpcodeBytes :=
  ⟨fun _ opA opB h => decode_of_not_mem_opcodes h opA opB, by decide, rfl,
    decode_of_not_mem_opcodes (by decide)⟩

/-! ### A line of the text image -/

/-- The character of a binary digit (30_encoding.md R51). -/
def bitChar (b : Bool) : Char := if b then '1' else '0'

/-- The low `n` bits of `x` as binary digits, most significant first. -/
def bitChars : Nat → Nat → List Char
  | 0, _ => []
  | n + 1, x => bitChar (x.testBit n) :: bitChars n x

theorem binaryDigit_bitChar (b : Bool) : binaryDigit (bitChar b) = some b.toNat := by
  cases b <;> rfl

theorem isSpace_bitChar (b : Bool) : isSpace (bitChar b) = false := by
  cases b <;> rfl

theorem bitChar_ne_hash (b : Bool) : bitChar b ≠ '#' := by
  cases b <;> decide

/-- Reading the digits of `n` bits shifts them in below what is read already, and does not see what follows them. -/
theorem leadingBinary_bitChars (n acc x : Nat) (trailing : List Char) :
    leadingBinary n acc (bitChars n x ++ trailing) = some (acc * 2 ^ n + x % 2 ^ n) := by
  induction n generalizing acc with
  | zero => simp [leadingBinary, Nat.mod_one]
  | succ n ih =>
    have hshift : (2 * acc + (x.testBit n).toNat) * 2 ^ n + x % 2 ^ n = acc * 2 ^ (n + 1) + x % 2 ^ (n + 1) := by
      rw [Nat.mod_pow_succ, Nat.toNat_testBit]
      ring
    simp only [bitChars, List.cons_append, leadingBinary, binaryDigit_bitChar, ih, hshift]

/-- A line that begins with a binary digit is neither blank nor a comment (30_encoding.md R51). -/
theorem lineBytes_bitChar_cons {b : Bool} {cs : List Char} {n : Nat}
    (h : leadingBinary 8 0 (bitChar b :: cs) = some n) : lineBytes (bitChar b :: cs) = .ok [BitVec.ofNat 8 n] := by
  simp [lineBytes, isSpace_bitChar, bitChar_ne_hash, h]

theorem lineBytes_bitChars (b : Byte) (trailing : List Char) :
    lineBytes (bitChars 8 b.toNat ++ trailing) = .ok [b] := by
  have hread : leadingBinary 8 0 (bitChars 8 b.toNat ++ trailing) = some b.toNat := by
    rw [leadingBinary_bitChars, Nat.mod_eq_of_lt b.isLt]
    simp
  exact (lineBytes_bitChar_cons hread).trans (by simp)

/-- A byte's bits picked by position are the digits of its value. -/
theorem range_map_getLsbD_eq_bitChars (b : Byte) :
    (List.range 8).map (fun k => if b.getLsbD (7 - k) then '1' else '0') = bitChars 8 b.toNat := rfl

/-- Settles O4: the line's digits are those of the byte's value, and eight of them read back as it. -/
theorem imageLineGivesItsByte : Obligations.ImageLineGivesItsByte := by
  intro b trailing
  rw [range_map_getLsbD_eq_bitChars]
  exact lineBytes_bitChars b trailing

end Sys2Proof.Machine
end

section
/-! The statements of 40_fetch_decode_execute.md: when a step exists, what it runs, the faults of fetch and decode, and
the jump to its own address. -/

namespace Sys2Proof.Machine

/-! ### When a step exists -/

theorem execDecoded_answers (d : Decoded) (s : State) : ∃ t, execDecoded d s = .next t := by
  cases d with
  | instr i => exact exec_answers i s
  | unknown byte => exact ⟨s.raise (.unknownOpcode byte), rfl⟩

theorem stepWith_answers (m : OpcodeMap) {s : State} (hr : s.runState = .running) : ∃ t, stepWith m s = .next t := by
  rcases Nat.lt_or_ge s.pc 254 with hp | hp
  · rw [stepWith_eq_execDecoded hr (Nat.le_of_lt_succ hp)]
    exact execDecoded_answers _ s
  · exact ⟨_, stepWith_high hr hp⟩

theorem stepWith_ne_next {m : OpcodeMap} {s : State} (hr : s.runState ≠ .running) (t : State) :
    stepWith m s ≠ .next t :=
  fun h => hr (stepWith_next_iff.mp h).1

/-- A state whose step, if it has one, answers the state itself reaches nothing else. -/
theorem Steps.eq_start {s t : State} (h : Steps s t) (hstep : ∀ u, step s = .next u → u = s) : t = s := by
  induction h with
  | refl => rfl
  | tail _ hu ih =>
    subst ih
    exact hstep _ hu

/-- Settles O17: a Running core has a step at every pc, and a stopped core has none to leave its state by. -/
theorem stepExactlyWhileRunning : Obligations.StepExactlyWhileRunning :=
  ⟨fun m _ => ⟨fun ⟨_, h⟩ => (stepWith_next_iff.mp h).1, stepWith_answers m⟩,
    fun _ _ hr h => h.eq_start fun u hu => absurd hu (stepWith_ne_next hr u)⟩

/-! ### What a step runs -/

/-- Settles O14. -/
theorem stepRunsDecoded : Obligations.StepRunsDecoded := fun _ _ => stepWith_of_decoded

theorem decoded_of_opcode {m : OpcodeMap} {s : State} {op : Op} (hm : m.Injective) (hop : m op = s.byte s.pc) :
    s.decoded m = .instr (op.instr (s.byte (s.pc + 1)) (s.byte (s.pc + 2))) :=
  decodeWith_eq_instr_iff.mpr ⟨op, hop ▸ lookup_opcode hm op, rfl⟩

/-- Settles O15: a miss is the raise of the unknown opcode, after which the core is Faulted; a hit is what the bytes at
pc decode to. -/
theorem unknownOpcodeFaults : Obligations.UnknownOpcodeFaults := by
  intro m s hr hp
  constructor
  · intro hmiss
    have hraise : stepWith m s = .next (s.raise (.unknownOpcode (s.byte s.pc))) :=
      stepWith_next_iff.mpr ⟨hr, .inr (.inl ⟨hp, hmiss, rfl⟩)⟩
    exact ⟨_, hraise, rfl, stepWith_ne_next (by simp)⟩
  · intro op hm hop
    exact stepWith_of_decoded hr hp (decoded_of_opcode hm hop)

/-- Settles O16: up to pc 256 the address the fetch fault records is 256. -/
theorem fetchAtTopFaults : Obligations.FetchAtTopFaults := by
  intro m s hr hlow hhigh
  rw [stepWith_high hr hlow, Nat.max_eq_right hhigh]
  rfl

/-! ### The jump to its own address -/

theorem State.jumpTo_eq_self {s : State} {v : Byte} (h : v.toNat = s.pc) : s.jumpTo v = s := by
  rw [State.jumpTo, h]

/-- Settles O43: the jump completes with pc overwritten by itself, so the state reaches only itself. -/
theorem selfJumpRunsForever : Obligations.SelfJumpRunsForever := by
  intro s a hr hp hd hself
  have hloop : step s = .next s := by
    rw [step, stepWith_of_decoded hr hp hd, exec_of_completes (.jmp a), State.jumpTo_eq_self hself]
  refine ⟨hloop, fun t ht => ?_⟩
  obtain rfl : t = s := ht.eq_start fun u hu => next_inj (hloop.symm.trans hu)
  exact hr

end Sys2Proof.Machine
end

section
/-! The statements of 41_load_print_halt.md: what an execution leaves unchanged, the rules of LDI, PRN and HLT, the text
of the output, and where a run halts. -/

namespace Sys2Proof.Machine

/-! ### What an execution leaves unchanged -/

/-- A completed instruction emits only as a PRN, and then its register's value (41_load_print_halt.md R61). -/
theorem Completes.out_eq {s t : State} {i : Instr} (h : Completes s i t) :
    t.out = s.out ∨ ∃ a : Fin 8, i = .prn a ∧ t.out = s.out ++ [s.reg a] := by
  cases h with
  | prn r => exact .inr ⟨r, rfl, rfl⟩
  | _ => exact .inl rfl

@[simp] theorem out_stateAtRaise (i : Instr) (s : State) : (stateAtRaise i s).out = s.out := by cases i <;> rfl

section
variable {s t : State} {i : Instr}

theorem exec_reg_eq (h : exec i s = .next t) (r : Fin 8) :
    t.reg r = s.reg r ∨ i.destination = some r.val ∨ (r = 7 ∧ i.usesStack = true) := by
  rcases exec_next h with hc | ⟨k, -, rfl⟩
  · exact hc.reg_eq r
  · exact (reg_stateAtRaise i s r).imp id .inr

theorem exec_byte_eq (h : exec i s = .next t) (x : Nat) :
    t.byte x = s.byte x ∨ (x = (s.sp - 1).toNat ∧ ∃ a, i = .push a ∨ i = .call a) := by
  rcases exec_next h with hc | ⟨k, -, rfl⟩
  · exact hc.byte_eq x
  · exact (byte_stateAtRaise i s x).imp id fun ⟨hx, a, ha⟩ => ⟨hx, a, .inr ha⟩

theorem exec_fl_eq (h : exec i s = .next t) : t.fl = s.fl ∨ ∃ a b : Fin 8, i = .cmp a b := by
  rcases exec_next h with hc | ⟨k, -, rfl⟩
  · exact hc.fl_eq
  · exact .inl (fl_stateAtRaise i s)

theorem exec_out_eq (h : exec i s = .next t) :
    t.out = s.out ∨ ∃ a : Fin 8, i = .prn a ∧ t.out = s.out ++ [s.reg a] := by
  rcases exec_next h with hc | ⟨k, -, rfl⟩
  · exact hc.out_eq
  · exact .inl (out_stateAtRaise i s)

/-- An execution keeps the run state (but for HLT) and the fault record, or records a bad operand (60_exceptions.md
R81, R82). -/
theorem exec_runState_fault (h : exec i s = .next t) :
    ((i ≠ .hlt → t.runState = s.runState) ∧ t.fault = s.fault) ∨
    (t.runState = .faulted ∧ ∃ k ∈ i.regOperands, t.fault = some (.invalidRegister k)) := by
  rcases exec_next h with hc | ⟨k, hk, rfl⟩
  · exact .inl ⟨fun hi => by rw [hc.runState_eq, if_neg hi], hc.fault_eq⟩
  · exact .inr ⟨rfl, k, (firstBadOperand_some hk).1, rfl⟩

/-- An execution that is no stack instruction's changes no byte of memory (20_memory.md R29). -/
theorem exec_byte_eq_of_not_usesStack (hi : i.usesStack = false) (h : exec i s = .next t) (x : Nat) :
    t.byte x = s.byte x := by
  refine (exec_byte_eq h x).resolve_right ?_
  rintro ⟨-, a, rfl | rfl⟩ <;> cases hi

end

/-- Settles O44: the four have a destination and leave the stack alone, so they are no CMP, PRN, HLT, PUSH or CALL. -/
theorem frameOfRegisterWriters : Obligations.FrameOfRegisterWriters := by
  intro s t a b v i hi h
  obtain ⟨hdest, hstack⟩ : i.destination = some a ∧ i.usesStack = false := by
    rcases hi with rfl | rfl | rfl | rfl <;> exact ⟨rfl, rfl⟩
  refine ⟨fun r hr => (exec_reg_eq h r).resolve_right ?_, (exec_fl_eq h).resolve_right ?_,
    (exec_out_eq h).resolve_right ?_, exec_byte_eq_of_not_usesStack hstack h, ?_⟩
  · simp [hdest, hstack, hr.symm]
  · rintro ⟨p, q, rfl⟩
    cases hdest
  · rintro ⟨p, rfl, -⟩
    cases hdest
  · refine (exec_runState_fault h).imp (fun ⟨hrun, hfault⟩ => ⟨hrun ?_, hfault⟩)
      fun ⟨hrun, k, _, hk⟩ => ⟨hrun, k, hk⟩
    rintro rfl
    cases hdest

/-- Settles O45: the four have no destination and leave the stack alone; among them only the CMP named writes FL and
only the PRN named emits. -/
theorem frameOfRegisterReaders : Obligations.FrameOfRegisterReaders := by
  intro s t a b i hi h
  obtain ⟨hdest, hstack⟩ : i.destination = none ∧ i.usesStack = false := by
    rcases hi with rfl | rfl | rfl | rfl <;> exact ⟨rfl, rfl⟩
  refine ⟨fun r => (exec_reg_eq h r).resolve_right ?_, exec_byte_eq_of_not_usesStack hstack h,
    fun hcmp => (exec_fl_eq h).resolve_right ?_, fun hprn => (exec_out_eq h).resolve_right ?_,
    (exec_runState_fault h).imp id fun ⟨hrun, k, _, hk⟩ => ⟨hrun, k, hk⟩⟩
  · simp [hdest, hstack]
  · rintro ⟨p, q, rfl⟩
    exact hcmp (by simpa using hi)
  · rintro ⟨p, rfl, -⟩
    exact hprn (by simpa using hi)

/-- Settles O53: the fetch and decode raises emit nothing, and an execution emits only as a PRN. -/
theorem onlyPrnEmits : Obligations.OnlyPrnEmits := by
  intro m s t h
  obtain ⟨-, ⟨-, rfl⟩ | ⟨-, -, rfl⟩ | ⟨-, i, hd, he⟩⟩ := stepWith_next_iff.mp h
  · exact .inl rfl
  · exact .inl rfl
  · exact (exec_out_eq he).imp id fun ⟨a, hi, hout⟩ => ⟨a, hi ▸ hd, hout⟩

/-! ### Where a run halts -/

theorem Op.instr_eq_hlt {op : Op} {opA opB : Byte} (h : op.instr opA opB = .hlt) : op = .hlt := by
  rw [← op.op_instr opA opB, h]
  rfl

/-- A step that ends Halted executed the HLT at pc: its opcode is the byte there, and that address is at most 253
(41_load_print_halt.md R62). -/
theorem stepWith_halted {m : OpcodeMap} {s t : State} (h : stepWith m s = .next t) (ht : t.runState = .halted) :
    s.pc ≤ 253 ∧ s.byte s.pc = m .hlt ∧ t = s.halt.advance 1 := by
  have hd : s.decoded m = .instr .hlt := (runStateTransitions.2 m s t h).2.1 ht
  obtain ⟨-, ⟨-, rfl⟩ | ⟨-, -, rfl⟩ | ⟨hp, i, hi, he⟩⟩ := stepWith_next_iff.mp h
  · cases ht
  · cases ht
  · obtain ⟨op, hop, hinstr⟩ := decodeWith_eq_instr_iff.mp hd
    obtain rfl : i = .hlt := Decoded.instr.inj (hi.symm.trans hd)
    exact ⟨hp, by rw [← Op.instr_eq_hlt hinstr, lookup_some hop], execHlt_next he⟩

/-- Settles O58: a run that ends Halted has a last step, and that step executed an HLT. -/
theorem haltedPcFollowsHlt : Obligations.HaltedPcFollowsHlt := by
  intro s t hs hst ht
  cases hst with
  | refl => simp [hs] at ht
  | tail _ hstep =>
    obtain ⟨hp, hbyte, rfl⟩ := stepWith_halted hstep ht
    exact ⟨Nat.succ_pos _, Nat.succ_le_succ hp, hbyte⟩

/-! ### LDI, PRN and HLT -/

theorem exec_of_bad_operand {i : Instr} {a : Nat} (s : State) (hi : i.regOperands = [a]) (ha : 8 ≤ a) :
    exec i s = .next ((stateAtRaise i s).raise (.invalidRegister a)) :=
  exec_of_firstBadOperand s (by simp [firstBadOperand, hi, ha])

/-- Settles O24. -/
theorem ldiRule : Obligations.LdiRule := by
  refine ⟨decode_opcodes .ldi, fun s a v => ?_, fun s a v => exec_of_bad_operand s rfl⟩
  have hexec := exec_of_completes (.ldi (s := s) a v)
  refine ⟨hexec, fun t ht => ?_⟩
  obtain rfl := next_inj (hexec.symm.trans ht)
  exact s.reg_setReg_same a v

/-- Settles O25. -/
theorem prnRule : Obligations.PrnRule :=
  ⟨decode_opcodes .prn, fun _ a => exec_of_completes (.prn a), fun s _ => exec_of_bad_operand s rfl⟩

/-- Settles O27: the state HLT answers is Halted, and a Halted core has no step. -/
theorem hltRule : Obligations.HltRule := by
  refine ⟨decode_opcodes .hlt, fun s => exec_of_completes .hlt, fun s t u h hsteps => ?_⟩
  obtain rfl := execHlt_next h
  exact stepExactlyWhileRunning.2 _ u (by simp) hsteps

/-! ### The text of a value -/

theorem digitChar_toNat {d : Nat} (h : d < 10) : (digitChar d).toNat = 48 + d := by
  revert d
  decide

theorem digitChar_isDigit {d : Nat} (h : d < 10) : (digitChar d).isDigit = true := by
  revert d
  decide

theorem digitChar_eq_zero {d : Nat} (h : d < 10) (hd : digitChar d = '0') : d = 0 := by
  revert d
  decide

/-- Settles O26: along the one, two and three digits of a numeral; with more than one the first is not 0. -/
theorem decimalTextReadsBack : Obligations.DecimalTextReadsBack := by
  intro v
  have hv : v.toNat < 256 := v.isLt
  have hmod : v.toNat % 10 < 10 := Nat.mod_lt _ (by decide)
  have hmid : v.toNat / 10 % 10 < 10 := Nat.mod_lt _ (by decide)
  simp only [decimal]
  split_ifs with h10 h100
  · refine ⟨by simp [digitChar_toNat h10], by simp [digitChar_isDigit h10], by simp, fun h0 => ?_⟩
    have hzero : v.toNat = 0 := digitChar_eq_zero h10 (Option.some.inj h0)
    exact ⟨BitVec.eq_of_toNat_eq hzero, by rw [hzero]; rfl⟩
  · have htens : v.toNat / 10 < 10 := by omega
    refine ⟨?_, by simp [digitChar_isDigit, hmod, htens], by simp, fun h0 => ?_⟩
    · simp only [List.foldl_cons, List.foldl_nil, digitChar_toNat htens, digitChar_toNat hmod]
      omega
    · have hzero : v.toNat / 10 = 0 := digitChar_eq_zero htens (Option.some.inj h0)
      omega
  · have hhund : v.toNat / 100 < 10 := by omega
    refine ⟨?_, by simp [digitChar_isDigit, hmod, hmid, hhund], by simp, fun h0 => ?_⟩
    · simp only [List.foldl_cons, List.foldl_nil, digitChar_toNat hhund, digitChar_toNat hmid, digitChar_toNat hmod]
      omega
    · have hzero : v.toNat / 100 = 0 := digitChar_eq_zero hhund (Option.some.inj h0)
      omega

end Sys2Proof.Machine
end

section
/-! The statements of 42_alu.md: the results of ADD, SUB and MUL and their two readings, the flags of CMP, and the bad
register indices of all four. -/

namespace Sys2Proof.Machine

/-! ### The arithmetic of bytes in its two readings -/

theorem ofInt_sub_ofInt (x y : Int) : BitVec.ofInt 8 x - BitVec.ofInt 8 y = BitVec.ofInt 8 (x - y) := by
  rw [Int.sub_eq_add_neg, BitVec.ofInt_add, BitVec.ofInt_neg, BitVec.sub_eq_add_neg]

section
variable {f : Int → Int → Int} {g : Byte → Byte → Byte}
  (hg : ∀ x y : Int, g (BitVec.ofInt 8 x) (BitVec.ofInt 8 y) = BitVec.ofInt 8 (f x y))
include hg

/-- A byte operation that is `f` on low bytes is the low byte of `f` on the signed readings (42_alu.md R67). -/
theorem eq_ofInt_of_signed_readings (va vb : Byte) : g va vb = BitVec.ofInt 8 (f va.toInt vb.toInt) := by
  rw [← hg, BitVec.ofInt_toInt, BitVec.ofInt_toInt]

/-- A byte operation that is `f` on low bytes is `f` modulo 256 on the unsigned readings (42_alu.md R67). -/
theorem toNat_eq_emod_of_unsigned_readings (va vb : Byte) :
    ((g va vb).toNat : Int) = f va.toNat vb.toNat % 256 := by
  have hlow : g va vb = BitVec.ofInt 8 (f va.toNat vb.toNat) := by simp [← hg]
  rw [hlow, BitVec.toNat_ofInt]
  omega

/-- The byte an operation gives is that of `f` reduced modulo 256 on the unsigned readings. -/
theorem eq_ofInt_emod_of_unsigned_readings (va vb : Byte) :
    g va vb = BitVec.ofInt 8 (f va.toNat vb.toNat % 256) := by
  rw [← toNat_eq_emod_of_unsigned_readings hg]
  simp

end

/-- Settles O29: addition, subtraction and multiplication commute with taking the low byte, and each of the three
instructions completes with its result written to the first register. -/
theorem arithmeticIsExactModulo256 : Obligations.ArithmeticIsExactModulo256 := by
  intro i f hi s a b
  obtain ⟨g, hg, hexec⟩ : ∃ g : Byte → Byte → Byte,
      (∀ x y : Int, g (BitVec.ofInt 8 x) (BitVec.ofInt 8 y) = BitVec.ofInt 8 (f x y)) ∧
      exec (i a b) s = .next ((s.setReg a (g (s.reg a) (s.reg b))).advance 3) := by
    rcases hi with ⟨rfl, rfl⟩ | ⟨rfl, rfl⟩ | ⟨rfl, rfl⟩
    · exact ⟨(· + ·), fun x y => (BitVec.ofInt_add x y).symm, exec_of_completes (.add a b)⟩
    · exact ⟨(· - ·), ofInt_sub_ofInt, exec_of_completes (.sub a b)⟩
    · exact ⟨(· * ·), fun x y => (BitVec.ofInt_mul x y).symm, exec_of_completes (.mul a b)⟩
  refine ⟨_, hexec, ?_, fun r hr => s.reg_setReg_ne _ hr, rfl, rfl, rfl, ?_⟩
  · rw [State.reg_advance, State.reg_setReg_same]
    exact toNat_eq_emod_of_unsigned_readings hg _ _
  · rw [State.reg_advance, State.reg_setReg_same]
    exact eq_ofInt_of_signed_readings hg _ _

/-- Settles O28: each of the three bytes written is the reduced integer the statement names. -/
theorem arithmeticResults : Obligations.ArithmeticResults := by
  intro s a b
  have hadd : s.reg a + s.reg b = BitVec.ofNat 8 (((s.reg a).toNat + (s.reg b).toNat) % 256) :=
    BitVec.eq_of_toNat_eq (by simp)
  have hsub : s.reg a - s.reg b = BitVec.ofInt 8 (((s.reg a).toNat - (s.reg b).toNat : Int) % 256) :=
    eq_ofInt_emod_of_unsigned_readings ofInt_sub_ofInt _ _
  have hmul : s.reg a * s.reg b = BitVec.ofNat 8 (((s.reg a).toNat * (s.reg b).toNat) % 256) :=
    BitVec.eq_of_toNat_eq (by simp)
  rw [← hadd, ← hsub, ← hmul]
  exact ⟨exec_of_completes (.add a b), exec_of_completes (.sub a b), exec_of_completes (.mul a b)⟩

/-! ### CMP -/

/-- Settles O30: the case for each of the three orders. -/
theorem cmpResult : Obligations.CmpResult := by
  intro s a b
  have hexec := exec_of_completes (.cmp (s := s) a b)
  refine ⟨fun h => ?_, fun h => ?_, fun h => ?_⟩
  · rwa [compareFlags_of_gt h] at hexec
  · rwa [compareFlags_of_lt h] at hexec
  · rwa [compareFlags_of_eq h] at hexec

/-- The compare's flag follows the order of its operands, which the exchange reverses (95_test_vectors.md S6). -/
theorem compareFlags_swap (va vb : Byte) :
    (compareFlags va vb = .greater ↔ compareFlags vb va = .less) ∧
    (compareFlags va vb = .less ↔ compareFlags vb va = .greater) ∧
    (compareFlags va vb = .equal ↔ compareFlags vb va = .equal) := by
  rcases Nat.lt_trichotomy va.toNat vb.toNat with h | h | h
  · simp [compareFlags_of_lt h, compareFlags_of_gt h]
  · simp [compareFlags_of_eq h, compareFlags_of_eq h.symm]
  · simp [compareFlags_of_gt h, compareFlags_of_lt h]

/-- Settles O32: both compares complete, and the flags they leave are those of the exchanged operands. -/
theorem compareSwapComplements : Obligations.CompareSwapComplements := by
  intro s t u a b ht hu
  obtain rfl := next_inj ((exec_of_completes (.cmp a b)).symm.trans ht)
  obtain rfl := next_inj ((exec_of_completes (.cmp b a)).symm.trans hu)
  exact compareFlags_swap (s.reg a) (s.reg b)

/-! ### Bad register indices -/

/-- Settles O33: an ALU instruction has done nothing when it raises, and it raises at its first bad operand. -/
theorem aluBadIndexFaults : Obligations.AluBadIndexFaults := by
  intro s a b i hi
  obtain ⟨hops, hstate⟩ : i.regOperands = [a, b] ∧ stateAtRaise i s = s := by
    rcases hi with rfl | rfl | rfl | rfl <;> exact ⟨rfl, rfl⟩
  have hraise {k : Nat} (hk : firstBadOperand i = some k) : exec i s = .next (s.raise (.invalidRegister k)) := by
    rw [exec_of_firstBadOperand s hk, hstate]
  refine ⟨fun ha => hraise ?_, fun ha hb => hraise ?_⟩
  · simp [firstBadOperand, hops, ha]
  · simp [firstBadOperand, hops, ha, hb]

end Sys2Proof.Machine
end

section
/-! The statements of 43_stack.md: the results of PUSH and POP, PUSH and POP in a row, and what the stack instructions
leave unchanged. -/

namespace Sys2Proof.Machine

/-! ### The results of PUSH and POP -/

theorem State.reg_incSp (s : State) (r : Fin 8) : s.incSp.reg r = if r = 7 then s.sp + 1 else s.reg r :=
  s.reg_setReg 7 r (s.sp + 1)

theorem State.sp_setReg_ne (s : State) {a : Fin 8} (v : Byte) (ha : a ≠ 7) : (s.setReg a v).sp = s.sp :=
  s.reg_setReg_ne v ha.symm

/-- Settles O34: the byte stored is the register read after the decrement. -/
theorem pushResult : Obligations.PushResult := by
  intro s a
  refine ⟨_, exec_of_completes (.push a), s.sp_decSp, ?_, rfl⟩
  rw [State.byte_advance, State.byte_setByte_same, State.reg_decSp]

/-- Settles O35: the increment of SP comes after the write, so it reaches the popped byte exactly in POP R7. -/
theorem popResult : Obligations.PopResult := by
  intro s a
  refine ⟨_, exec_of_completes (.pop a), ?_, fun ha => ?_, rfl⟩
  · rw [State.reg_advance, State.reg_incSp, State.reg_setReg_same]
    by_cases ha : a = 7
    · subst ha
      rw [← State.reg_seven, State.reg_setReg_same]
    · rw [if_neg ha, if_neg ha]
  · rw [State.sp_advance, State.sp_incSp, s.sp_setReg_ne _ ha]

/-- Settles O38: POP reads the byte at the SP that PUSH left, which is the byte PUSH stored. -/
theorem pushPopRoundTrip : Obligations.PushPopRoundTrip := by
  intro s r r2
  obtain ⟨t, hpush, hsp, hbyte, -⟩ := pushResult s r
  obtain ⟨u, hpop, hreg, hspu, -⟩ := popResult t r2
  rw [hsp, hbyte] at hreg
  refine ⟨t, u, hpush, hpop, fun h2 => ⟨?_, ?_⟩, ?_⟩
  · rw [hreg, if_neg h2]
  · rw [hspu h2, hsp, sub_add_cancel]
  · rintro rfl
    rw [← State.reg_seven, hreg, if_pos rfl]

/-! ### What a stack instruction leaves unchanged -/

section
variable {s t : State} {i : Instr}

theorem exec_fl_eq_of_usesStack (hi : i.usesStack = true) (h : exec i s = .next t) : t.fl = s.fl := by
  refine (exec_fl_eq h).resolve_right ?_
  rintro ⟨a, b, rfl⟩
  cases hi

theorem exec_out_eq_of_usesStack (hi : i.usesStack = true) (h : exec i s = .next t) : t.out = s.out := by
  refine (exec_out_eq h).resolve_right ?_
  rintro ⟨a, rfl, -⟩
  cases hi

/-- A stack instruction, being no HLT, changes the run state and the fault record only to record a bad operand
(60_exceptions.md R82). -/
theorem exec_runState_fault_of_usesStack (hi : i.usesStack = true) (h : exec i s = .next t) :
    (t.runState = s.runState ∧ t.fault = s.fault) ∨
    (t.runState = .faulted ∧ ∃ k ∈ i.regOperands, t.fault = some (.invalidRegister k)) := by
  refine (exec_runState_fault h).imp (fun ⟨hrun, hfault⟩ => ⟨hrun ?_, hfault⟩) id
  rintro rfl
  cases hi

end

/-- Settles O46: both are stack instructions without a destination, and their one operand is the index recorded. -/
theorem frameOfPushes : Obligations.FrameOfPushes := by
  intro s t a i hi h
  obtain ⟨hstack, hdest, hops⟩ : i.usesStack = true ∧ i.destination = none ∧ i.regOperands = [a] := by
    rcases hi with rfl | rfl <;> exact ⟨rfl, rfl, rfl⟩
  refine ⟨fun r hr => (exec_reg_eq h r).resolve_right ?_, exec_fl_eq_of_usesStack hstack h,
    exec_out_eq_of_usesStack hstack h, fun x hx => (exec_byte_eq h x).resolve_right ?_, ?_⟩
  · simp [hdest, hr]
  · rintro ⟨hsp, -⟩
    exact hx (s.sp_decSp ▸ hsp)
  · simpa [hops] using exec_runState_fault_of_usesStack hstack h

/-- Settles O47: both are stack instructions and neither is a PUSH or CALL; only POP has a destination, and RET has no
operand to be recorded. -/
theorem frameOfPops : Obligations.FrameOfPops := by
  intro s t a i hi h
  have hstack : i.usesStack = true := by rcases hi with rfl | rfl <;> rfl
  refine ⟨fun r hr hra => (exec_reg_eq h r).resolve_right ?_, exec_fl_eq_of_usesStack hstack h,
    exec_out_eq_of_usesStack hstack h, fun x => (exec_byte_eq h x).resolve_right ?_, ?_⟩
  · rcases hi with rfl | rfl
    · simp [Instr.destination, hr, (hra rfl).symm]
    · simp [Instr.destination, hr]
  · rintro ⟨-, b, hb⟩
    rcases hi with rfl | rfl <;> simp at hb
  · have hrun := exec_runState_fault_of_usesStack hstack h
    rcases hi with rfl | rfl <;> simpa [Instr.regOperands] using hrun

end Sys2Proof.Machine
end

section
/-! The statements of 44_control_transfer.md: the results of CALL, RET and JMP, and a CALL answered by a RET. -/

namespace Sys2Proof.Machine

/-- Settles O39: the byte stored is the return address, exact at such a pc, and the register is read after the
decrement. -/
theorem callResult : Obligations.CallResult := by
  intro s a hpc
  refine ⟨_, exec_of_completes (.call a), s.sp_decSp, ?_, ?_⟩
  · rw [State.byte_jumpTo, State.byte_setByte_same, returnAddress_toNat hpc]
  · rw [State.pc_jumpTo, State.reg_decSp]

/-- Settles O40: the one way a RET completes. -/
theorem retResult : Obligations.RetResult := fun _ => exec_of_completes .ret

/-- Settles O41: a JMP completes with a register index and has done nothing yet when it raises with any other. -/
theorem jmpResult : Obligations.JmpResult :=
  ⟨fun _ a => exec_of_completes (.jmp a), fun s _ => exec_of_bad_operand s rfl⟩

/-- Settles O42: the RET reads the return address in the cell at the SP the CALL left, and raises that SP by the 1 it
was lowered by. -/
theorem callRetRoundTrip : Obligations.CallRetRoundTrip := by
  intro s a hpc
  obtain ⟨t, hcall, hsp, hret, -⟩ := callResult s a hpc
  refine ⟨t, hcall, fun u husp hubyte => ⟨_, exec_of_completes .ret, ?_, ?_⟩⟩
  · rw [State.pc_incSp, State.pc_jumpTo, husp, hubyte, hsp, hret]
  · rw [State.sp_incSp, State.sp_jumpTo, husp, hsp, sub_add_cancel]

end Sys2Proof.Machine
end

section
/-! The statements of 60_exceptions.md: what a raise sets, the state a faulted step leaves, the cause each record tells,
and the faults of bad register operands. -/

namespace Sys2Proof.Machine

/-! ### Raising -/

/-- Settles O19: the raised state is Faulted, so no step leaves it. -/
theorem raiseIsTerminal : Obligations.RaiseIsTerminal := by
  intro s f
  have hrun : (s.raise f).runState ≠ .running := by simp
  exact ⟨rfl, fun _ => stepWith_ne_next hrun, fun t => stepExactlyWhileRunning.2 _ t hrun⟩

/-! ### A step that ends Faulted -/

theorem Completes.runState_ne_faulted {s t : State} {i : Instr} (h : Completes s i t) (hr : s.runState = .running) :
    t.runState ≠ .faulted := by
  rw [h.runState_eq, hr]
  split <;> decide

/-- A step that ends Faulted is a raise: at the fetch, at an unknown opcode, or at the first bad operand of the
instruction it decodes (60_exceptions.md R78 to R80). -/
theorem stepWith_faulted {m : OpcodeMap} {s t : State} (h : stepWith m s = .next t) (ht : t.runState = .faulted) :
    (254 ≤ s.pc ∧ t = s.raise (.addressOutOfRange (max s.pc 256 : Nat))) ∨
    (s.pc ≤ 253 ∧ (∀ op, m op ≠ s.byte s.pc) ∧ t = s.raise (.unknownOpcode (s.byte s.pc))) ∨
    (s.pc ≤ 253 ∧ ∃ i k, s.decoded m = .instr i ∧ firstBadOperand i = some k ∧
      t = (stateAtRaise i s).raise (.invalidRegister k)) := by
  obtain ⟨hr, hfetch | hopcode | ⟨hp, i, hd, he⟩⟩ := stepWith_next_iff.mp h
  · exact .inl hfetch
  · exact .inr (.inl hopcode)
  · rcases exec_next he with hc | ⟨k, hk, hraise⟩
    · exact absurd ht (hc.runState_ne_faulted hr)
    · exact .inr (.inr ⟨hp, i, k, hd, hk, hraise⟩)

/-- Settles O20: fetch and decode raise in the old state, and so does every instruction but PUSH and CALL, whose one
operand is the bad one. -/
theorem faultedStepIsPrecise : Obligations.FaultedStepIsPrecise := by
  intro m s t h ht
  rcases stepWith_faulted h ht with ⟨-, rfl⟩ | ⟨-, -, rfl⟩ | ⟨-, i, k, hd, hk, rfl⟩
  · exact ⟨rfl, rfl, rfl, _, rfl, .inl rfl⟩
  · exact ⟨rfl, rfl, rfl, _, rfl, .inl rfl⟩
  · obtain ⟨hmem, hbad⟩ := firstBadOperand_some hk
    refine ⟨pc_stateAtRaise i s, fl_stateAtRaise i s, out_stateAtRaise i s, _, rfl, ?_⟩
    rcases push_or_call_or_neither i with ⟨a, rfl⟩ | ⟨a, rfl⟩ | hi
    · obtain rfl : k = a := List.mem_singleton.mp hmem
      exact .inr (.inl ⟨k, hd, hbad, rfl⟩)
    · obtain rfl : k = a := List.mem_singleton.mp hmem
      exact .inr (.inr ⟨k, hd, hbad, rfl⟩)
    · exact .inl (by rw [stateAtRaise_eq_self s hi])

/-- Settles O21: each of the three raises a step can end with records a fault of its own kind. -/
theorem recordedFaultTellsItsCause : Obligations.RecordedFaultTellsItsCause := by
  intro m s t h ht
  rcases stepWith_faulted h ht with ⟨hp, rfl⟩ | ⟨hp, hmiss, rfl⟩ | ⟨hp, i, k, hd, hk, rfl⟩
  · exact ⟨hp, rfl⟩
  · exact ⟨hp, rfl, hmiss⟩
  · obtain ⟨hmem, hbad⟩ := firstBadOperand_some hk
    exact ⟨hp, hbad, i, hd, hmem⟩

/-! ### Bad register operands -/

/-- Settles O22: the raise is at the first bad operand, whatever the instruction has done before it. -/
theorem badRegisterFaults : Obligations.BadRegisterFaults :=
  fun _ s _ hk => ⟨_, exec_of_firstBadOperand s hk, rfl, rfl⟩

/-- Settles O36: PUSH raises with SP lowered, POP in the old state, and CALL with its return address stored, which is
exact at such a pc. -/
theorem stackBadIndexFaults : Obligations.StackBadIndexFaults := by
  intro s a ha
  refine ⟨exec_of_bad_operand s rfl ha, exec_of_bad_operand s rfl ha, fun hpc => ?_⟩
  refine ⟨_, exec_of_bad_operand s rfl ha, rfl, rfl, rfl, s.sp_decSp, ?_⟩
  rw [State.byte_raise, stateAtRaise, State.byte_setByte_same, returnAddress_toNat hpc]

end Sys2Proof.Machine
end

section
/-! The statements of 70_reset_and_hazards.md: the state after reset, and the start state the Loader makes of an
image. -/

namespace Sys2Proof.Machine

/-! ### The state after reset -/

@[simp] theorem State.byte_reset (a : Nat) : State.reset.byte a = 0 := rfl

@[simp] theorem State.reg_reset (r : Fin 8) : State.reset.reg r = if r = 7 then spReset else gprReset := by
  revert r
  decide

/-- Settles O49: memory lists nothing, and neither a fault nor the Faulted state is there. -/
theorem resetHasInv : Obligations.ResetHasInv where
  pcRange := Nat.zero_le 256
  memWf := reset_mem_wf
  record := by decide

/-- Settles O2: R7 alone has a reset value other than 0. -/
theorem resetTable : Obligations.ResetTable :=
  ⟨State.reg_reset 7, fun r hr => (State.reg_reset r).trans (if_neg hr), rfl, rfl, rfl, State.byte_reset, rfl, rfl⟩

/-! ### The start state -/

theorem State.start_of_length_le {image : List Byte} (h : image.length ≤ 256) :
    State.start image = .ok (State.reset.storeBytes 0 image) :=
  if_pos h

theorem State.start_of_length_gt {image : List Byte} (h : 256 < image.length) :
    State.start image = .error (.addressOutOfRange 256) :=
  if_neg (Nat.not_le.mpr h)

/-- Storing bytes keeps the invariant: it writes memory alone, and memory stays canonical. -/
theorem State.Inv.storeBytes {s : State} (h : s.Inv) (a : Nat) (bs : List Byte) : (s.storeBytes a bs).Inv := by
  have hwf := s.storeBytes_wf a bs h.memWf
  obtain ⟨m, hm⟩ := State.storeBytes_mem_only bs s a
  rw [hm] at hwf ⊢
  exact ⟨h.pcRange, hwf, h.record⟩

/-- An image stored from address 0 lies at the addresses of its own positions, and beyond it memory reads as at reset
(70_reset_and_hazards.md R96). -/
theorem State.byte_reset_storeBytes {image : List Byte} (h : image.length ≤ 256) (k : Nat) :
    (State.reset.storeBytes 0 image).byte k = image.getD k 0 := by
  rw [State.byte_storeBytes image State.reset 0 k (by omega)]
  by_cases hk : k < image.length
  · simp [hk]
  · simp [hk]

/-- Settles O3: the start state is reset with the image stored, which changes memory alone. -/
theorem loaderPlacesImage : Obligations.LoaderPlacesImage := by
  refine ⟨fun image h => ⟨_, State.start_of_length_le h, State.byte_reset_storeBytes h,
    State.Inv.storeBytes resetHasInv 0 image, ?_⟩, fun image => State.start_of_length_gt⟩
  obtain ⟨m, hm⟩ := State.storeBytes_mem_only image State.reset 0
  rw [hm]
  exact ⟨rfl, rfl, rfl, rfl, rfl, rfl⟩

end Sys2Proof.Machine
end
